-- ==== Sys2Proof/Word.lean ====
section
/-!
DEFINITION. The words of PCXDEC: a byte, a 16-bit little-endian value, and the packing of two bytes into one.
Every value of the block is unsigned (spec/00_scope.md R8).
-/

namespace Sys2Proof

/-- An 8-bit unsigned value; bit 0 is the least significant bit (R8). -/
abbrev Byte := BitVec 8

/-- A 16-bit unsigned value (a `u16le` field, R85). -/
abbrev Half := BitVec 16

/-- `hi ++ lo`: the bit concatenation of R8, `hi` in the high bits. -/
def packHalf (lo hi : Byte) : Half := hi ++ lo

end Sys2Proof
end

