-- ==== Sys2Proof/Config.lean ====
section
/-!
DEFINITION. The implementation parameters of spec/00_scope.md: the fixed ones of R6, and the two the source leaves
open (R7), which the model takes as parameters, at the spec's defaults. PCXDEC has no free value: the spec leaves no result of an operation open.
-/

namespace Sys2Proof

/-- HDR_LEN: bytes captured and parsed by HDR (R6). -/
abbrev Config.hdrLen : Nat := 128

/-- MARKER_MASK: a byte with both these bits set is a run marker (R6). -/
abbrev Config.markerMask : Byte := 0xC0#8

/-- COUNT_MASK: the low 6 bits give the repeat count (R6). -/
abbrev Config.countMask : Byte := 0x3F#8

/-- COUNT_MAX: the largest repeat count (R6). -/
abbrev Config.countMax : Nat := 63

/-- PAL_ENTRIES (host side, R6). -/
abbrev Config.palEntries : Nat := 256

/-- PAL_BYTES (host side, R6): 256 × 3. -/
abbrev Config.palBytes : Nat := 768

/-- TRAILER_LEN (host side, R6): separator byte plus palette. -/
abbrev Config.trailerLen : Nat := 769

/-- MIN_SOURCE_LEN (host side, R6): 128 + 769. -/
abbrev Config.minSourceLen : Nat := 897

/-- POS_W at the spec's default (R7). The machine takes POS_W as the parameter `State.posW`; this is the value it has in
`State.reset` (notes/assumptions/1.md). -/
abbrev Config.posW : Nat := 32

/-- The two host-side dimension formulas of R188. -/
inductive DimMode where
  | documented
  | legacy
  deriving DecidableEq, Repr

/-- DIM_MODE at the spec's default (R7). The host functions take the mode as an argument; this is its default. -/
abbrev Config.dimMode : DimMode := .documented

end Sys2Proof
end

