-- ==== Sys2Proof/Syntax.lean ====
section
/-!
DEFINITION. The operations of spec/opcode_table.json, one constructor per row, and the words the host puts on the
block's input side: input symbols (R11, R70), a RUN offered whole (R73), and a header field's offset (R86).
-/

namespace Sys2Proof

/-- An input symbol (R11, R70): `BYTE(b)`, or the out-of-band `END`, which is no byte value. -/
inductive Sym where
  | byte (b : Byte)
  | endOfInput
  deriving DecidableEq, Repr

/-- The lines of one unit's input port, `*_in_valid`, `*_in_end` and `*_in_byte` (R34, R35). -/
structure PortLines where
  valid : Bool
  isEnd : Bool
  byte : Byte
  deriving DecidableEq, Repr

/-- What the host can put before the block in one step. -/
inductive PortWord where
  /-- A symbol on RLE's input port (R35). -/
  | rleSym (x : Sym)
  /-- The two bytes of one RUN item offered back to back on RLE's port: the 16-bit row `RUN` (R73,
  notes/assumptions/3.md). -/
  | rleItem (marker data : Byte)
  /-- A symbol on HDR's input port (R34). -/
  | hdrSym (x : Sym)
  /-- A read of the header field output at this offset of the 7-bit header offset space (R26, R86). -/
  | fieldRead (offset : BitVec 7)
  deriving DecidableEq, Repr

/-- One constructor per row of spec/opcode_table.json; `LIT` has two rows. -/
inductive Instr where
  /-- `LIT`, first row, `0b0xxxxxxx` (R72, R142). -/
  | litLow (v : Byte)
  /-- `LIT`, second row, `0b10xxxxxx` (R72, R142). -/
  | litHigh (v : Byte)
  /-- `RUN`, the whole two-byte item `11nnnnnn dddddddd` (R73). -/
  | run (n : BitVec 6) (d : Byte)
  /-- `RUN_MARK`, the marker byte of a run (R143). -/
  | runMark (n : BitVec 6)
  /-- `RUN_DATA`, the data byte of a run (R144). -/
  | runData (d : Byte)
  /-- `END_IDLE`, `END` with no run pending (R146). -/
  | endIdle
  /-- `END_PEND`, `END` with a run pending (R147). -/
  | endPend
  /-- `HDR_CAPTURE`, one header byte (R101). -/
  | hdrCapture (b : Byte)
  /-- `HDR_END`, `END` before 128 header bytes (R103). -/
  | hdrEnd
  /-- `HDR.marker`, offset 0, u8 (R106). -/
  | hdrMarker
  /-- `HDR.version`, offset 1, u8 (R107). -/
  | hdrVersion
  /-- `HDR.encoding`, offset 2, u8 (R108). -/
  | hdrEncoding
  /-- `HDR.bpp`, offset 3, u8 (R109). -/
  | hdrBpp
  /-- `HDR.xmin`, offset 4, u16le (R110). -/
  | hdrXmin
  /-- `HDR.ymin`, offset 6, u16le (R111). -/
  | hdrYmin
  /-- `HDR.xmax`, offset 8, u16le (R112). -/
  | hdrXmax
  /-- `HDR.ymax`, offset 10, u16le (R113). -/
  | hdrYmax
  /-- `HDR.vdpi`, offset 12, u16le (R114). -/
  | hdrVdpi
  /-- `HDR.hdpi`, offset 14, u16le (R115). -/
  | hdrHdpi
  /-- `HDR.pal16`, offset 16, blk[48] (R116). -/
  | hdrPal16
  /-- `HDR.reserved`, offset 64, u8 (R117). -/
  | hdrReserved
  /-- `HDR.nplanes`, offset 65, u8 (R118). -/
  | hdrNplanes
  /-- `HDR.bpl`, offset 66, u16le (R119). -/
  | hdrBpl
  /-- `HDR.palinfo`, offset 68, u16le (R120). -/
  | hdrPalinfo
  /-- `HDR.hscreen`, offset 70, u16le (R121). -/
  | hdrHscreen
  /-- `HDR.vscreen`, offset 72, u16le (R122). -/
  | hdrVscreen
  /-- `HDR.pad`, offset 74, blk[54] (R123). -/
  | hdrPad
  deriving DecidableEq, Repr

/-- The port an operation belongs to (R34, R35, R86). -/
inductive Port where
  | rle
  | hdr
  | field
  deriving DecidableEq, Repr

/-- The port a word is put on. -/
def PortWord.port : PortWord → Port
  | .rleSym _ => .rle
  | .rleItem _ _ => .rle
  | .hdrSym _ => .hdr
  | .fieldRead _ => .field

/-- The port an operation is fetched from. -/
def Instr.port : Instr → Port
  | .litLow _ => .rle
  | .litHigh _ => .rle
  | .run _ _ => .rle
  | .runMark _ => .rle
  | .runData _ => .rle
  | .endIdle => .rle
  | .endPend => .rle
  | .hdrCapture _ => .hdr
  | .hdrEnd => .hdr
  | .hdrMarker => .field
  | .hdrVersion => .field
  | .hdrEncoding => .field
  | .hdrBpp => .field
  | .hdrXmin => .field
  | .hdrYmin => .field
  | .hdrXmax => .field
  | .hdrYmax => .field
  | .hdrVdpi => .field
  | .hdrHdpi => .field
  | .hdrPal16 => .field
  | .hdrReserved => .field
  | .hdrNplanes => .field
  | .hdrBpl => .field
  | .hdrPalinfo => .field
  | .hdrHscreen => .field
  | .hdrVscreen => .field
  | .hdrPad => .field

/-- The control condition a row of R140 asks for: `some false` is IDLE (`rle_pend` = 0), `some true` is PENDING, and
`none` is an operation of HDR, whose decoding reads no flag. -/
def Instr.pendClass : Instr → Option Bool
  | .litLow _ => some false
  | .litHigh _ => some false
  | .run _ _ => some false
  | .runMark _ => some false
  | .runData _ => some true
  | .endIdle => some false
  | .endPend => some true
  | .hdrCapture _ => none
  | .hdrEnd => none
  | .hdrMarker => none
  | .hdrVersion => none
  | .hdrEncoding => none
  | .hdrBpp => none
  | .hdrXmin => none
  | .hdrYmin => none
  | .hdrXmax => none
  | .hdrYmax => none
  | .hdrVdpi => none
  | .hdrHdpi => none
  | .hdrPal16 => none
  | .hdrReserved => none
  | .hdrNplanes => none
  | .hdrBpl => none
  | .hdrPalinfo => none
  | .hdrHscreen => none
  | .hdrVscreen => none
  | .hdrPad => none

end Sys2Proof
end

