-- ==== Sys2Proof/WellFormed.lean ====
section
/-!
DEFINITION. The checks an operation's operands must pass to have an encoding: a literal's top bits (R72, R80: "`lit`
with V ≥ 0xC0 … rejected by the notation"). Every other operand's type admits exactly the values its field has.
-/

namespace Sys2Proof

/-- R72: the first `LIT` row holds bytes with bit 7 clear, the second bytes with `[7:6] = 0b10`. -/
def Instr.wellFormed : Instr → Bool
  | .litLow v => v.extractLsb' 7 1 == 0#1
  | .litHigh v => v.extractLsb' 6 2 == 2#2
  | .run _ _ => true
  | .runMark _ => true
  | .runData _ => true
  | .endIdle => true
  | .endPend => true
  | .hdrCapture _ => true
  | .hdrEnd => true
  | .hdrMarker => true
  | .hdrVersion => true
  | .hdrEncoding => true
  | .hdrBpp => true
  | .hdrXmin => true
  | .hdrYmin => true
  | .hdrXmax => true
  | .hdrYmax => true
  | .hdrVdpi => true
  | .hdrHdpi => true
  | .hdrPal16 => true
  | .hdrReserved => true
  | .hdrNplanes => true
  | .hdrBpl => true
  | .hdrPalinfo => true
  | .hdrHscreen => true
  | .hdrVscreen => true
  | .hdrPad => true

/-- An operation fits a value of `rle_pend` when its row of R140 is the one for that value. -/
def Instr.fits (i : Instr) (pend : Bool) : Bool :=
  match i.pendClass with
  | none => true
  | some p => p == pend

end Sys2Proof
end

