-- ==== Sys2Proof/Decode.lean ====
section
/-!
DEFINITION. Decoding: from the words on the block's input side to an operation, total and rejecting by name (R70 to
R79, R86), and after it the encoder, written from the same tables. A byte on RLE's port has no meaning without
`rle_pend` (R140, R141), so the decoder takes that flag as an argument. The last part reads whole items from a byte
sequence (R74) and numbers words as spec/opcode_table.json does.
-/

namespace Sys2Proof

/-! ## Bit fields of a stream byte -/

/-- R141: a run marker has its top two bits set (`b >= 0xC0`). -/
def isMarker (b : Byte) : Bool := b &&& Config.markerMask == Config.markerMask

/-- R75, R143: `n = b & 0x3F`, zero-extended, 0..63. -/
def markerCount (b : Byte) : BitVec 6 := (b &&& Config.countMask).setWidth 6

/-- R73: the marker byte `0b11 ++ n`. -/
def markerByte (n : BitVec 6) : Byte := 3#2 ++ n

/-! ## Port lines -/

/-- R70: the symbol the lines of an input port offer; with `*_in_end` = 1 the byte lines are ignored. -/
def offeredSym (l : PortLines) : Option Sym :=
  if l.valid then some (if l.isEnd then .endOfInput else .byte l.byte) else none

/-! ## Decoding -/

/-- Why a word on the input side is no operation. -/
inductive DecodeError where
  /-- No field of R83 starts at this header offset. -/
  | notAFieldOffset (offset : BitVec 7)
  /-- A 16-bit item whose first byte is not a run marker (R74: such a byte is a 1-byte LIT). -/
  | itemNotARun (first : Byte)
  /-- A 16-bit item offered while a run is pending (R140: the next byte is that run's data byte, no item begins). -/
  | itemWhilePending
  deriving DecidableEq, Repr

/-- R83, R86: the header offset of every field and its read operation. -/
def fieldRows : List (BitVec 7 × Instr) :=
  [ (0#7, .hdrMarker),
    (1#7, .hdrVersion),
    (2#7, .hdrEncoding),
    (3#7, .hdrBpp),
    (4#7, .hdrXmin),
    (6#7, .hdrYmin),
    (8#7, .hdrXmax),
    (10#7, .hdrYmax),
    (12#7, .hdrVdpi),
    (14#7, .hdrHdpi),
    (16#7, .hdrPal16),
    (64#7, .hdrReserved),
    (65#7, .hdrNplanes),
    (66#7, .hdrBpl),
    (68#7, .hdrPalinfo),
    (70#7, .hdrHscreen),
    (72#7, .hdrVscreen),
    (74#7, .hdrPad) ]

/-- R86: a field read is keyed by its offset; any other offset is rejected by name. -/
def decodeField (offset : BitVec 7) : Except DecodeError Instr :=
  match fieldRows.find? (fun row => row.1 == offset) with
  | some row => .ok row.2
  | none => .error (.notAFieldOffset offset)

/-- R140, R141: the class of a byte on RLE's port, from its value and `rle_pend` alone. -/
def decodeRleByte (pend : Bool) (b : Byte) : Instr :=
  if pend then .runData b
  else if isMarker b then .runMark (markerCount b)
  else if b.extractLsb' 7 1 == 0#1 then .litLow b
  else .litHigh b

/-- R73, R140: a RUN item is read only where a first byte is read, with no run pending. -/
def decodeRleItem (pend : Bool) (marker data : Byte) : Except DecodeError Instr :=
  if pend then .error .itemWhilePending
  else if isMarker marker then .ok (.run (markerCount marker) data)
  else .error (.itemNotARun marker)

/-- The operation a word on the input side stands for, given `rle_pend`. -/
def decode (pend : Bool) (w : PortWord) : Except DecodeError Instr :=
  match w with
  | .rleSym (.byte b) => .ok (decodeRleByte pend b)
  | .rleSym .endOfInput => .ok (if pend then .endPend else .endIdle)
  | .rleItem marker data => decodeRleItem pend marker data
  | .hdrSym (.byte b) => .ok (.hdrCapture b)
  | .hdrSym .endOfInput => .ok .hdrEnd
  | .fieldRead offset => decodeField offset

/-! ## Encoding -/

/-- The word of an operation (R70, R72, R73, R83, R86). -/
def encode (i : Instr) : PortWord :=
  match i with
  | .litLow v => .rleSym (.byte v)
  | .litHigh v => .rleSym (.byte v)
  | .run n d => .rleItem (markerByte n) d
  | .runMark n => .rleSym (.byte (markerByte n))
  | .runData d => .rleSym (.byte d)
  | .endIdle => .rleSym .endOfInput
  | .endPend => .rleSym .endOfInput
  | .hdrCapture b => .hdrSym (.byte b)
  | .hdrEnd => .hdrSym .endOfInput
  | .hdrMarker => .fieldRead 0#7
  | .hdrVersion => .fieldRead 1#7
  | .hdrEncoding => .fieldRead 2#7
  | .hdrBpp => .fieldRead 3#7
  | .hdrXmin => .fieldRead 4#7
  | .hdrYmin => .fieldRead 6#7
  | .hdrXmax => .fieldRead 8#7
  | .hdrYmax => .fieldRead 10#7
  | .hdrVdpi => .fieldRead 12#7
  | .hdrHdpi => .fieldRead 14#7
  | .hdrPal16 => .fieldRead 16#7
  | .hdrReserved => .fieldRead 64#7
  | .hdrNplanes => .fieldRead 65#7
  | .hdrBpl => .fieldRead 66#7
  | .hdrPalinfo => .fieldRead 68#7
  | .hdrHscreen => .fieldRead 70#7
  | .hdrVscreen => .fieldRead 72#7
  | .hdrPad => .fieldRead 74#7

/-! ## Items of a byte sequence -/

/-- What stands at the front of a byte sequence read where no run is pending. -/
inductive ItemResult where
  | item (i : Instr) (rest : List Byte)
  /-- R77: a RUN cut short, the marker with no byte after it. -/
  | truncatedRun (n : BitVec 6)
  | empty
  deriving DecidableEq, Repr

/-- R74: the first byte alone tells an item's length; the second byte of a RUN is never classified. -/
def decodeItem (bytes : List Byte) : ItemResult :=
  match bytes with
  | [] => .empty
  | [b] => if isMarker b then .truncatedRun (markerCount b) else .item (decodeRleByte false b) []
  | b :: d :: rest =>
    if isMarker b then .item (.run (markerCount b) d) rest else .item (decodeRleByte false b) (d :: rest)

/-- The stream bytes of an item (R72, R73); an operation that is not a whole item has none. -/
def itemBytes (i : Instr) : List Byte :=
  match encode i with
  | .rleSym (.byte b) => [b]
  | .rleItem marker data => [marker, data]
  | .rleSym .endOfInput => []
  | .hdrSym _ => []
  | .fieldRead _ => []

/-! ## Words numbered as spec/opcode_table.json numbers them -/

/-- The word with bits `w` on the port its row belongs to. The table numbers three spaces in one list, and an 8-bit
row of RLE and a 7-bit offset of HDR can be the same number: the row with more fixed bits is taken, the header
field's seven before a literal's one (notes/assumptions/4.md). A 16-bit row has its first stream byte in `[15:8]`. -/
def tableWord (nbits w : Nat) : PortWord :=
  if nbits ≤ 8 then
    if w < 128 ∧ (fieldRows.any fun row => row.1 == BitVec.ofNat 7 w) then .fieldRead (BitVec.ofNat 7 w)
    else .rleSym (.byte (BitVec.ofNat 8 w))
  else .rleItem (BitVec.ofNat 8 (w / 256)) (BitVec.ofNat 8 w)

/-- The operation the decoder reads from a table word, where no run is pending. -/
def decodeTableWord (nbits w : Nat) : Option Instr :=
  match decode false (tableWord nbits w) with
  | .ok i => some i
  | .error _ => none

end Sys2Proof
end

