-- ==== Sys2Proof/Machine/State.lean ====
section
/-!
DEFINITION. The state of PCXDEC (spec/10_state.md R20): the HDR unit, the RLE unit, the output port's drain (R41), the
held start (R243), the power-on condition (R244), and the host's side of the ports, which the spec does not give the
block but a run needs (notes/assumptions/2.md).
-/

namespace Sys2Proof.Machine

/-- The failure codes of R210. Codes 6 and 7 are never produced and have no name here. -/
inductive ErrCode where
  | none
  | truncatedInput
  | truncatedRun
  | sourceTooShort
  | unsupportedFormat
  | ioError
  deriving DecidableEq, Repr

/-- The two failures the block itself raises (R211, R212, R213). -/
inductive UnitError where
  | truncatedInput
  | truncatedRun
  deriving DecidableEq, Repr

/-- `hdr_phase` (R22). -/
inductive HdrPhase where
  | active
  | done
  | fault
  deriving DecidableEq, Repr

/-- `rle_phase` (R27). -/
inductive RlePhase where
  | active
  | ended
  | fault
  deriving DecidableEq, Repr

/-- The header offset space (R50): pairs of offset and byte, offsets strictly rising. An unlisted offset holds no
value (R40: "the model holds 'no value' for each"), so no entry ever equals what an unlisted offset reads as. -/
abbrev Memory := List Host.Cell

/-- The canonical form: offsets strictly rise and lie in the 128-byte space (R50). -/
abbrev Memory.wf (m : Memory) : Prop :=
  List.Pairwise (fun a b : Host.Cell => a.1 < b.1) m ∧ ∀ c ∈ m, c.1 < Config.hdrLen

/-- The HDR unit (R20 to R24). -/
structure Hdr where
  /-- `hdr_phase`. -/
  phase : HdrPhase
  /-- `hdr_cur`, the next header offset to capture, 0..128 (R23). -/
  cur : BitVec 8
  /-- `hdr_buf` (R21). -/
  buf : Memory
  /-- `hdr_err` (R24). -/
  err : ErrCode
  deriving DecidableEq, Repr

/-- The RLE unit (R27 to R31). -/
structure Rle where
  /-- `rle_phase`. -/
  phase : RlePhase
  /-- `rle_pend`: the data byte of a run marker is awaited (R28). -/
  pend : Bool
  /-- `rle_cnt`: the repeat count of the pending marker (R29). -/
  cnt : BitVec 6
  /-- `rle_pos`: the count of input bytes accepted since the last start, modulo 2^POS_W (R30). -/
  pos : Nat
  /-- `rle_err` (R31). -/
  err : ErrCode
  deriving DecidableEq, Repr

/-- HDR's reset state (R40): no captured byte holds a value. -/
def Hdr.reset : Hdr := { phase := .active, cur := 0#8, buf := [], err := .none }

/-- RLE's reset state (R40). -/
def Rle.reset : Rle := { phase := .active, pend := false, cnt := 0#6, pos := 0, err := .none }

/-- A value the host has read. -/
inductive ReadValue where
  /-- A `u8` header field (R105). -/
  | byte (v : Byte)
  /-- A `u16le` header field (R105). -/
  | half (v : Half)
  /-- An opaque block (R105). -/
  | block (bytes : List Byte)
  /-- STATUS, register 0 (R37). -/
  | status (v : BitVec 32)
  /-- RLE_POS, register 1, POS_W bits wide (R38). -/
  | rlePos (width : Nat) (v : BitVec width)
  /-- `hdr_valid` (R26). -/
  | hdrValid (v : Bool)
  deriving DecidableEq, Repr

/-- What the host does on the data lines in one step. -/
inductive Request where
  | idle
  /-- Offer a symbol to a unit, or read a field output. -/
  | offer (w : PortWord)
  /-- Read a register of the status space by its number (R39). -/
  | readReg (n : Nat)
  /-- Read the qualifier output `hdr_valid` (R26). -/
  | readHdrValid
  deriving DecidableEq, Repr

/-- The host's inputs in one step (R34 to R36, R197): the three controls, one request, and how many output bytes the
sink takes in this step (`rle_out_ready`, R35; one or more bytes, R41). -/
structure Slot where
  rst : Bool := false
  hdrStart : Bool := false
  rleStart : Bool := false
  req : Request := .idle
  take : Nat := 0
  deriving DecidableEq, Repr

/-- The machine. -/
structure State where
  /-- POS_W, the width in bits of `rle_pos` (R7): a parameter of the machine, which no step changes. It is no state of the
  block (R33) and stands here because a step takes only a state (notes/assumptions/1.md). -/
  posW : Nat
  /-- The HDR unit. -/
  hdr : Hdr
  /-- The RLE unit. -/
  rle : Rle
  /-- Output bytes of accepted steps that the sink has not taken yet, oldest first: the drain state of R41. -/
  undrained : List Byte
  /-- `rle_start` was asserted while output was undrained and takes effect once the sink has it (R243). -/
  startWait : Bool
  /-- `rst` has been asserted since power-on (R244). -/
  rstSeen : Bool
  /-- The sink's stream, outside the block (R33): every byte transferred on the output port, oldest first (R35). -/
  sink : List Byte
  /-- The host's coming inputs, the next one first. -/
  inbox : List Slot
  /-- Symbols the block did not accept, which stay with the host (R58, R102), oldest first. -/
  held : List PortWord
  /-- The values the host has read, oldest first. -/
  reads : List ReadValue
  deriving DecidableEq, Repr

/-- The machine with this POS_W (R7) right after `rst` (R40, R240), with nothing drained, nothing offered and nothing
read. -/
def State.resetAt (posW : Nat) : State :=
  { posW := posW, hdr := Hdr.reset, rle := Rle.reset, undrained := [], startWait := false, rstSeen := true,
    sink := [], inbox := [], held := [], reads := [] }

/-- The machine with POS_W at the spec's default, right after `rst`. -/
def State.reset : State := State.resetAt Config.posW

/-- Why the machine stops with a fault. Both are safe: the model stops where a circuit drives some value. -/
inductive Fault where
  /-- A field output read while `hdr_valid` = 0 (R26, R248). Raised by the 18 field reads. Safe. -/
  | fieldNotValid
  /-- A read of a header byte that has not been captured since the last start (R40, I1). Raised by the field reads in a
  DONE state that no run reaches (R25). Safe. -/
  | unwrittenHeaderByte (offset : Nat)
  deriving DecidableEq, Repr

/-- Why the model gives a step no meaning. Every one is safe: it allows nothing the spec forbids. -/
inductive Refusal where
  /-- An operation without a meaning yet; raised by `exec`'s arms alone. Safe. -/
  | notModelled (mnemonic : String)
  /-- A step before the first `rst` (R244: "A model refuses any step before the first `rst`"). Raised by the step. Safe. -/
  | beforeFirstRst
  /-- A word on the input side that is no operation. Raised by the step. Safe. -/
  | undecodable (e : DecodeError)
  /-- A register number of the status space other than 0 and 1 (R39). Raised by the step. Safe. -/
  | noSuchRegister (n : Nat)
  /-- `MemRead` beyond the header offset space (R51). No operation of the table names such an offset. Safe. -/
  | memReadOutOfRange (addr : Nat)
  /-- `MemWrite` beyond the header offset space, where R101 (`hdr_cur` < 128) gives no capture (notes/assumptions/16.md).
  Raised by HDR_CAPTURE in an ACTIVE state that no run reaches (R25). Safe. -/
  | memWriteOutOfRange (addr : Nat)
  /-- An RLE operation applied where `rle_pend` is not the value its row of R140 names. Raised by the RLE meanings when
  they are applied directly; the step decodes by `rle_pend` and never does so. Safe. -/
  | wrongClass
  deriving DecidableEq, Repr

end Sys2Proof.Machine
end

