-- ==== Sys2Proof/Machine/Ops.lean ====
section
/-!
DEFINITION. The named operations over the state: sequencing of outcomes, the header offset space (R10, R51), the
output port (R35, R41), acceptance (R34, R35), fault entry and its exits (R214, R220, R240 to R243).
-/

namespace Sys2Proof.Machine

/-- Go on with the value of an outcome; a fault or a refusal stops. -/
def andThen {α β : Type} (o : Host.Outcome α Fault Refusal) (f : α → Host.Outcome β Fault Refusal) :
    Host.Outcome β Fault Refusal :=
  match o with
  | .next a => f a
  | .fault r => .fault r
  | .refused r => .refused r

/-! ## The header offset space -/

/-- The byte at an offset, or no value (R40). -/
def Memory.get (m : Memory) (a : Nat) : Option Byte :=
  match m with
  | [] => none
  | (c, v) :: rest => if a = c then some v else Memory.get rest a

/-- Put a byte at an offset, keeping the offsets strictly rising. -/
def Memory.set (m : Memory) (a : Nat) (b : Byte) : Memory :=
  match m with
  | [] => [(a, b)]
  | (c, v) :: rest =>
    if a < c then (a, b) :: (c, v) :: rest
    else if a = c then (a, b) :: rest
    else (c, v) :: Memory.set rest a b

/-- `MemRead(a, 1)` (R10, R51). A byte with no value is a fault (93_implementation_defined.md I1). -/
def memRead1 (m : Memory) (a : Nat) : Host.Outcome Byte Fault Refusal :=
  if a + 1 ≤ Config.hdrLen then
    match Memory.get m a with
    | some v => .next v
    | none => .fault (.unwrittenHeaderByte a)
  else .refused (.memReadOutOfRange a)

/-- `MemRead(a, 2)`, little-endian: the byte at the lower offset is the less significant (R10, R51, R52). -/
def memRead2 (m : Memory) (a : Nat) : Host.Outcome Half Fault Refusal :=
  if a + 2 ≤ Config.hdrLen then
    andThen (memRead1 m a) fun lo => andThen (memRead1 m (a + 1)) fun hi => .next (packHalf lo hi)
  else .refused (.memReadOutOfRange a)

/-- The byte sequence `[hdr_buf[a], ..., hdr_buf[a+k-1]]` of an opaque block (R105). -/
def memReadBlock (m : Memory) (a : Nat) (k : Nat) : Host.Outcome (List Byte) Fault Refusal :=
  match k with
  | 0 => .next []
  | k + 1 => andThen (memRead1 m a) fun v => andThen (memReadBlock m (a + 1) k) fun vs => .next (v :: vs)

/-- `MemWrite(a, 1, b)` (R10); only the capture step writes. -/
def memWrite (m : Memory) (a : Nat) (b : Byte) : Host.Outcome Memory Fault Refusal :=
  if a < Config.hdrLen then .next (Memory.set m a b) else .refused (.memWriteOutOfRange a)

/-! ## Acceptance -/

/-- `hdr_in_ready` = (`hdr_phase` = ACTIVE) (R34). -/
def hdrInReady (s : State) : Bool := s.hdr.phase == .active

/-- `hdr_valid` = (`hdr_phase` = DONE) (R26). -/
def hdrValid (s : State) : Bool := s.hdr.phase == .done

/-- `rle_in_ready`: the phase is ACTIVE, and no output of an earlier step is still undrained (R35, R41). -/
def rleInReady (s : State) : Bool := s.rle.phase == .active && s.undrained.isEmpty

/-- `rle_out_valid` (R35). -/
def rleOutValid (s : State) : Bool := !s.undrained.isEmpty

/-- `rle_out_byte` (R35), while one is offered. -/
def rleOutByte (s : State) : Option Byte := s.undrained.head?

/-- An HDR step (R100): the symbol is accepted in ACTIVE and not accepted, with no change, otherwise (R102, R104). -/
def whenHdrAccepts (effect : State → Host.Outcome State Fault Refusal) (s : State) :
    Host.Outcome State Fault Refusal :=
  if hdrInReady s then effect s else .next s

/-- An RLE step (R140) whose row is the one for `rle_pend` = `pend`: not accepted, with no change, while
`rle_in_ready` = 0 (R41, R148). -/
def whenRleAccepts (pend : Bool) (effect : State → State) (s : State) : Host.Outcome State Fault Refusal :=
  if rleInReady s then
    if s.rle.pend == pend then .next (effect s) else .refused .wrongClass
  else .next s

/-! ## RLE effects -/

/-- `Emit(bytes)`: append to the output stream (R10). The bytes are on the port until the sink takes them (R41). -/
def emit (bytes : List Byte) (s : State) : State := { s with undrained := s.undrained ++ bytes }

/-- A stream offset modulo 2^POS_W (R7, R30). -/
def wrapPos (posW n : Nat) : Nat := n % 2 ^ posW

/-- `rle_pos <- (rle_pos + 1) mod 2^POS_W` (R30). -/
def advanceRlePos (s : State) : State := { s with rle := { s.rle with pos := wrapPos s.posW (s.rle.pos + 1) } }

/-- Set `rle_pend` and `rle_cnt` together. -/
def setPending (pend : Bool) (cnt : BitVec 6) (s : State) : State :=
  { s with rle := { s.rle with pend := pend, cnt := cnt } }

/-- R142. -/
def literalEffect (v : Byte) (s : State) : State := advanceRlePos (emit [v] s)

/-- R143. -/
def markerEffect (n : BitVec 6) (s : State) : State := advanceRlePos (setPending true n s)

/-- R144: `rep(rle_cnt, d)`, whatever the value of d (R145). -/
def dataEffect (d : Byte) (s : State) : State :=
  advanceRlePos (setPending false 0#6 (emit (List.replicate s.rle.cnt.toNat d) s))

/-- R146. -/
def endEffect (s : State) : State := { s with rle := { s.rle with phase := .ended } }

/-! ## HDR effect -/

/-- R101: `hdr_buf[hdr_cur] <- b`, advance the cursor, and DONE with the 128th byte. -/
def captureEffect (b : Byte) (s : State) : Host.Outcome State Fault Refusal :=
  andThen (memWrite s.hdr.buf s.hdr.cur.toNat b) fun buf =>
    .next { s with hdr := { s.hdr with
      buf := buf
      cur := s.hdr.cur + 1
      phase := if s.hdr.cur + 1 == 128#8 then .done else s.hdr.phase } }

/-- The host has read a value; no block state changes (R58). -/
def logRead (v : ReadValue) (s : State) : State := { s with reads := s.reads ++ [v] }

/-! ## Fault entry and exit -/

/-- Fault entry (R214): the detecting unit's phase and error code are set and every other field is left unchanged, so
that its position and, for RLE, `rle_pend` and `rle_cnt` record the context (R211, R212). -/
def raise (e : UnitError) (s : State) : State :=
  match e with
  | .truncatedInput => { s with hdr := { s.hdr with phase := .fault, err := .truncatedInput } }
  | .truncatedRun => { s with rle := { s.rle with phase := .fault, err := .truncatedRun } }

/-- `hdr_start` (R242): HDR alone goes to its reset state, from any phase. One of the two exits of an HDR fault (R220). -/
def applyHdrStart (s : State) : State := { s with hdr := Hdr.reset }

/-- `rle_start` (R243): RLE alone goes to its reset state, from any phase; while output is undrained it waits. -/
def applyRleStart (s : State) : State :=
  if s.undrained.isEmpty then { s with rle := Rle.reset, startWait := false } else { s with startWait := true }

/-- `rst` (R240): both units go to the reset state and undrained output is discarded. -/
def applyRst (s : State) : State :=
  { s with hdr := Hdr.reset, rle := Rle.reset, undrained := [], startWait := false, rstSeen := true }

/-! ## The output port -/

/-- A start that waits for the drain takes effect once nothing is undrained (R243). -/
def releaseStart (s : State) : State :=
  if s.startWait && s.undrained.isEmpty then { s with rle := Rle.reset, startWait := false } else s

/-- The sink takes up to `k` bytes from the output port, in order (R35, R41). -/
def takeOutput (k : Nat) (s : State) : State :=
  releaseStart { s with sink := s.sink ++ s.undrained.take k, undrained := s.undrained.drop k }

end Sys2Proof.Machine
end

