-- ==== Sys2Proof/Machine/Operands.lean ====
section
/-!
DEFINITION. The three operand forms of a header field (R83, R105): `u8`, `u16le` and `blk[k]`, each read from
`hdr_buf` alone, and the read of a field output, which is gated by `hdr_valid` (R26).
-/

namespace Sys2Proof.Machine

/-- A `u8` field at offset `o` (R105). -/
def fieldU8 (o : Nat) (s : State) : Host.Outcome Byte Fault Refusal := memRead1 s.hdr.buf o

/-- A `u16le` field at offset `o` (R105). -/
def fieldU16 (o : Nat) (s : State) : Host.Outcome Half Fault Refusal := memRead2 s.hdr.buf o

/-- A `blk[k]` field at offset `o` (R105). -/
def fieldBlock (o k : Nat) (s : State) : Host.Outcome (List Byte) Fault Refusal := memReadBlock s.hdr.buf o k

/-- R26: a field output has a value only while `hdr_valid` = 1; a read at any other time is a fault. -/
def whenHdrValid (effect : State → Host.Outcome State Fault Refusal) (s : State) :
    Host.Outcome State Fault Refusal :=
  if hdrValid s then effect s else .fault .fieldNotValid

/-- Read a `u8` field output. -/
def readU8 (o : Nat) (s : State) : Host.Outcome State Fault Refusal :=
  whenHdrValid (fun s => andThen (fieldU8 o s) fun v => .next (logRead (.byte v) s)) s

/-- Read a `u16le` field output. -/
def readU16 (o : Nat) (s : State) : Host.Outcome State Fault Refusal :=
  whenHdrValid (fun s => andThen (fieldU16 o s) fun v => .next (logRead (.half v) s)) s

/-- Read a `blk[k]` field output. -/
def readBlock (o k : Nat) (s : State) : Host.Outcome State Fault Refusal :=
  whenHdrValid (fun s => andThen (fieldBlock o k s) fun bs => .next (logRead (.block bs) s)) s

end Sys2Proof.Machine
end

