-- ==== Sys2Proof/Machine/HdrFields.lean ====
section
/-!
DEFINITION. The 18 header field reads (spec/40_header_parser.md R106 to R123), one meaning per row of the opcode table.
Each reads `hdr_buf` alone and only while `hdr_valid` = 1; it changes no block state.
-/

namespace Sys2Proof.Machine

/-- `HDR.marker`, offset 0, u8 (R106). -/
def execHdrMarker (s : State) : Host.Outcome State Fault Refusal := readU8 0 s

/-- `HDR.version`, offset 1, u8 (R107). -/
def execHdrVersion (s : State) : Host.Outcome State Fault Refusal := readU8 1 s

/-- `HDR.encoding`, offset 2, u8 (R108). -/
def execHdrEncoding (s : State) : Host.Outcome State Fault Refusal := readU8 2 s

/-- `HDR.bpp`, offset 3, u8 (R109). -/
def execHdrBpp (s : State) : Host.Outcome State Fault Refusal := readU8 3 s

/-- `HDR.xmin`, offset 4, u16le (R110). -/
def execHdrXmin (s : State) : Host.Outcome State Fault Refusal := readU16 4 s

/-- `HDR.ymin`, offset 6, u16le (R111). -/
def execHdrYmin (s : State) : Host.Outcome State Fault Refusal := readU16 6 s

/-- `HDR.xmax`, offset 8, u16le (R112). -/
def execHdrXmax (s : State) : Host.Outcome State Fault Refusal := readU16 8 s

/-- `HDR.ymax`, offset 10, u16le (R113). -/
def execHdrYmax (s : State) : Host.Outcome State Fault Refusal := readU16 10 s

/-- `HDR.vdpi`, offset 12, u16le (R114). -/
def execHdrVdpi (s : State) : Host.Outcome State Fault Refusal := readU16 12 s

/-- `HDR.hdpi`, offset 14, u16le (R115). -/
def execHdrHdpi (s : State) : Host.Outcome State Fault Refusal := readU16 14 s

/-- `HDR.pal16`, offset 16, blk[48] (R116). -/
def execHdrPal16 (s : State) : Host.Outcome State Fault Refusal := readBlock 16 48 s

/-- `HDR.reserved`, offset 64, u8 (R117). -/
def execHdrReserved (s : State) : Host.Outcome State Fault Refusal := readU8 64 s

/-- `HDR.nplanes`, offset 65, u8 (R118). -/
def execHdrNplanes (s : State) : Host.Outcome State Fault Refusal := readU8 65 s

/-- `HDR.bpl`, offset 66, u16le (R119). -/
def execHdrBpl (s : State) : Host.Outcome State Fault Refusal := readU16 66 s

/-- `HDR.palinfo`, offset 68, u16le (R120). -/
def execHdrPalinfo (s : State) : Host.Outcome State Fault Refusal := readU16 68 s

/-- `HDR.hscreen`, offset 70, u16le (R121). -/
def execHdrHscreen (s : State) : Host.Outcome State Fault Refusal := readU16 70 s

/-- `HDR.vscreen`, offset 72, u16le (R122). -/
def execHdrVscreen (s : State) : Host.Outcome State Fault Refusal := readU16 72 s

/-- `HDR.pad`, offset 74, blk[54] (R123). -/
def execHdrPad (s : State) : Host.Outcome State Fault Refusal := readBlock 74 54 s

end Sys2Proof.Machine
end

