-- ==== Sys2Proof/Machine/HdrSteps.lean ====
section
/-!
DEFINITION. The HDR step operations (spec/40_header_parser.md R101, R103), one meaning per row of the opcode table.
-/

namespace Sys2Proof.Machine

/-- `HDR_CAPTURE` (R101). -/
def execHdrCapture (b : Byte) (s : State) : Host.Outcome State Fault Refusal :=
  whenHdrAccepts (captureEffect b) s

/-- `HDR_END` (R103): takes the TRUNCATED_INPUT fault. -/
def execHdrEnd (s : State) : Host.Outcome State Fault Refusal :=
  whenHdrAccepts (fun s => .next (raise .truncatedInput s)) s

end Sys2Proof.Machine
end

