-- ==== Sys2Proof/Machine/RleSteps.lean ====
section
/-!
DEFINITION. The RLE operations (spec/41_rle_decompressor.md R142 to R147), one meaning per row of the opcode table.
-/

namespace Sys2Proof.Machine

/-- `LIT`, bytes 0x00..0x7F (R142). -/
def execLitLow (v : Byte) (s : State) : Host.Outcome State Fault Refusal :=
  whenRleAccepts false (literalEffect v) s

/-- `LIT`, bytes 0x80..0xBF (R142). -/
def execLitHigh (v : Byte) (s : State) : Host.Outcome State Fault Refusal :=
  whenRleAccepts false (literalEffect v) s

/-- `RUN`: both bytes of the item, the marker by R143 and then the data byte by R144. -/
def execRun (n : BitVec 6) (d : Byte) (s : State) : Host.Outcome State Fault Refusal :=
  whenRleAccepts false (fun s => dataEffect d (markerEffect n s)) s

/-- `RUN_MARK` (R143). -/
def execRunMark (n : BitVec 6) (s : State) : Host.Outcome State Fault Refusal :=
  whenRleAccepts false (markerEffect n) s

/-- `RUN_DATA` (R144). -/
def execRunData (d : Byte) (s : State) : Host.Outcome State Fault Refusal :=
  whenRleAccepts true (dataEffect d) s

/-- `END_IDLE` (R146). -/
def execEndIdle (s : State) : Host.Outcome State Fault Refusal :=
  whenRleAccepts false endEffect s

/-- `END_PEND` (R147): takes the TRUNCATED_RUN fault. -/
def execEndPend (s : State) : Host.Outcome State Fault Refusal :=
  whenRleAccepts true (raise .truncatedRun) s

end Sys2Proof.Machine
end

