-- ==== Sys2Proof/Machine/Dispatch.lean ====
section
/-!
DEFINITION. The dispatch: one arm per constructor of Instr, each one call of its meaning.
-/

namespace Sys2Proof.Machine

def exec (i : Instr) (s : State) : Host.Outcome State Fault Refusal :=
  match i with
  | .litLow v => Sys2Proof.Machine.execLitLow v s
  | .litHigh v => Sys2Proof.Machine.execLitHigh v s
  | .run n d => Sys2Proof.Machine.execRun n d s
  | .runMark n => Sys2Proof.Machine.execRunMark n s
  | .runData d => Sys2Proof.Machine.execRunData d s
  | .endIdle => Sys2Proof.Machine.execEndIdle s
  | .endPend => Sys2Proof.Machine.execEndPend s
  | .hdrCapture b => Sys2Proof.Machine.execHdrCapture b s
  | .hdrEnd => Sys2Proof.Machine.execHdrEnd s
  | .hdrMarker => Sys2Proof.Machine.execHdrMarker s
  | .hdrVersion => Sys2Proof.Machine.execHdrVersion s
  | .hdrEncoding => Sys2Proof.Machine.execHdrEncoding s
  | .hdrBpp => Sys2Proof.Machine.execHdrBpp s
  | .hdrXmin => Sys2Proof.Machine.execHdrXmin s
  | .hdrYmin => Sys2Proof.Machine.execHdrYmin s
  | .hdrXmax => Sys2Proof.Machine.execHdrXmax s
  | .hdrYmax => Sys2Proof.Machine.execHdrYmax s
  | .hdrVdpi => Sys2Proof.Machine.execHdrVdpi s
  | .hdrHdpi => Sys2Proof.Machine.execHdrHdpi s
  | .hdrPal16 => Sys2Proof.Machine.execHdrPal16 s
  | .hdrReserved => Sys2Proof.Machine.execHdrReserved s
  | .hdrNplanes => Sys2Proof.Machine.execHdrNplanes s
  | .hdrBpl => Sys2Proof.Machine.execHdrBpl s
  | .hdrPalinfo => Sys2Proof.Machine.execHdrPalinfo s
  | .hdrHscreen => Sys2Proof.Machine.execHdrHscreen s
  | .hdrVscreen => Sys2Proof.Machine.execHdrVscreen s
  | .hdrPad => Sys2Proof.Machine.execHdrPad s

end Sys2Proof.Machine
end

