-- ==== Sys2Proof/Machine/Flags.lean ====
section
/-!
DEFINITION. The status space (R37 to R39): the codes of phases and errors, the STATUS word, RLE_POS, and the recorded
context of each fault (R211, R212). Every field is a live view of the state; nothing here is stored.
-/

namespace Sys2Proof.Machine

/-- R22: ACTIVE 0, DONE 1, FAULT 2; 3 is never held. -/
def hdrPhaseCode (p : HdrPhase) : BitVec 2 :=
  match p with
  | .active => 0#2
  | .done => 1#2
  | .fault => 2#2

/-- R27: ACTIVE 0, ENDED 1, FAULT 2; 3 is never held. -/
def rlePhaseCode (p : RlePhase) : BitVec 2 :=
  match p with
  | .active => 0#2
  | .ended => 1#2
  | .fault => 2#2

/-- The 3-bit codes of R210. -/
def errCode (e : ErrCode) : BitVec 3 :=
  match e with
  | .none => 0#3
  | .truncatedInput => 1#3
  | .truncatedRun => 2#3
  | .sourceTooShort => 3#3
  | .unsupportedFormat => 4#3
  | .ioError => 5#3

/-- STATUS, register 0 (R37): [1:0] HDR_PHASE, [3:2] RLE_PHASE, [4] RLE_PEND, [10:5] RLE_CNT, [13:11] HDR_ERR,
[16:14] RLE_ERR, [24:17] HDR_CUR, [31:25] hardwired 0. -/
def statusWord (s : State) : BitVec 32 :=
  0#7 ++ s.hdr.cur ++ errCode s.rle.err ++ errCode s.hdr.err ++ s.rle.cnt ++ BitVec.ofBool s.rle.pend
    ++ rlePhaseCode s.rle.phase ++ hdrPhaseCode s.hdr.phase

/-- The value of a register of the status space; there are two (R37, R38, R39). -/
def statusRegister (n : Nat) (s : State) : Option ReadValue :=
  match n with
  | 0 => some (.status (statusWord s))
  | 1 => some (.rlePos s.posW (BitVec.ofNat s.posW s.rle.pos))
  | _ + 2 => none

/-- A read of the status space: at any time, in any phase, with no side effect; other numbers are refused (R39). -/
def readStatus (n : Nat) (s : State) : Host.Outcome State Fault Refusal :=
  match statusRegister n s with
  | some v => .next (logRead v s)
  | none => .refused (.noSuchRegister n)

/-- The context of TRUNCATED_INPUT (R103, R211). -/
structure InputContext where
  expected : Nat
  actual : Nat
  deriving DecidableEq, Repr

/-- The context of TRUNCATED_RUN (R147, R212). -/
structure RunContext where
  /-- The offset of the dangling marker, `(rle_pos − 1) mod 2^POS_W`. -/
  markerPos : Nat
  /-- The marker's count, `rle_cnt`. -/
  count : BitVec 6
  /-- The input length, `rle_pos`. -/
  inputLen : Nat
  /-- `rle_pos + 1`, the length that would have been enough (R212). -/
  expectedLen : Nat
  deriving DecidableEq, Repr

/-- The context that RLE's position and count record (R147, R212). -/
def runContext (s : State) : RunContext :=
  { markerPos := wrapPos s.posW (s.rle.pos + 2 ^ s.posW - 1), count := s.rle.cnt, inputLen := s.rle.pos,
    expectedLen := s.rle.pos + 1 }

/-- What HDR's frozen state says of its fault; none outside FAULT. -/
def hdrFaultContext (s : State) : Option InputContext :=
  if s.hdr.phase == .fault then some { expected := Config.hdrLen, actual := s.hdr.cur.toNat } else none

/-- What RLE's frozen state says of its fault; none outside FAULT. -/
def rleFaultContext (s : State) : Option RunContext :=
  if s.rle.phase == .fault then some (runContext s) else none

end Sys2Proof.Machine
end

