-- ==== Sys2Proof/Machine/Slots.lean ====
section
/-!
DEFINITION. One step of the host's inputs: controls before symbols (R241), a symbol accepted or left with the host
(R58), the operation it decodes to, and the sink's transfer. Then a list of slots fed in order.
-/

namespace Sys2Proof.Machine

/-- The controls of a slot, before its request (R240 to R243). `rst` acts on both units and leaves the starts nothing
to do. -/
def applyControls (sl : Slot) (s : State) : State :=
  if sl.rst then applyRst s
  else
    let h := if sl.hdrStart then applyHdrStart s else s
    if sl.rleStart then applyRleStart h else h

/-- R241: a symbol offered to a unit in the step of `rst` or of that unit's start is not accepted. -/
def blockedByControl (sl : Slot) (w : PortWord) : Bool :=
  match w.port with
  | .rle => sl.rst || sl.rleStart
  | .hdr => sl.rst || sl.hdrStart
  | .field => false

/-- Whether the port a word is put on is ready for it (R34, R35); a field output can be read at any time (R39, R58). -/
def portReady (w : PortWord) (s : State) : Bool :=
  match w.port with
  | .rle => rleInReady s
  | .hdr => hdrInReady s
  | .field => true

/-- A symbol that is not accepted is not consumed and stays with the host (R58, R102). -/
def holdWord (w : PortWord) (s : State) : State := { s with held := s.held ++ [w] }

/-- Fetch the operation a word stands for and run it. -/
def runWord (w : PortWord) (s : State) : Host.Outcome State Fault Refusal :=
  match decode s.rle.pend w with
  | .ok i => exec i s
  | .error e => .refused (.undecodable e)

/-- The request of a slot, after its controls. -/
def runRequest (sl : Slot) (s : State) : Host.Outcome State Fault Refusal :=
  match sl.req with
  | .idle => .next s
  | .offer w => if !blockedByControl sl w && portReady w s then runWord w s else .next (holdWord w s)
  | .readReg n => readStatus n s
  | .readHdrValid => .next (logRead (.hdrValid (hdrValid s)) s)

/-- One slot. Before the first `rst` every step but that `rst` is refused (R244). -/
def stepSlot (sl : Slot) (s : State) : Host.Outcome State Fault Refusal :=
  if s.rstSeen || sl.rst then
    andThen (runRequest sl (applyControls sl s)) fun t => .next (takeOutput sl.take t)
  else .refused .beforeFirstRst

/-- With nothing offered a unit takes no step and keeps its state (R227). -/
def stepIdle (s : State) : Host.Outcome State Fault Refusal :=
  if s.rstSeen then .next s else .refused .beforeFirstRst

/-- Slots in order, stopping at the first fault or refusal. -/
def feed (slots : List Slot) (s : State) : Host.Outcome State Fault Refusal :=
  match slots with
  | [] => .next s
  | sl :: rest => andThen (stepSlot sl s) (feed rest)

/-! ## Slots for whole streams (R183, R184) -/

/-- A symbol for RLE, the sink taking whatever the step emits (at most COUNT_MAX bytes, R144). -/
def rleSlot (x : Sym) : Slot := { req := .offer (.rleSym x), take := Config.countMax }

/-- A symbol for HDR. -/
def hdrSlot (x : Sym) : Slot := { req := .offer (.hdrSym x) }

/-- A byte sequence for RLE, then `END`. -/
def rleStream (bytes : List Byte) : List Slot :=
  (bytes.map fun b => rleSlot (.byte b)) ++ [rleSlot .endOfInput]

/-- The request RLE's input lines make (R35, R70). -/
def rleRequest (l : PortLines) : Request :=
  match offeredSym l with
  | some x => .offer (.rleSym x)
  | none => .idle

/-- The request HDR's input lines make (R34, R70). -/
def hdrRequest (l : PortLines) : Request :=
  match offeredSym l with
  | some x => .offer (.hdrSym x)
  | none => .idle

/-- The slot that offers a table word as the next thing the machine fetches. -/
def tableSlot (nbits w : Nat) : Slot := { req := .offer (tableWord nbits w), take := Config.countMax }

end Sys2Proof.Machine
end

