-- ==== Sys2Proof/Machine/Step.lean ====
section
/-!
DEFINITION. The step: the next slot of the host's inputs, or nothing where none is there.
-/

namespace Sys2Proof.Machine

/-- One step of the machine. -/
def step (s : State) : Host.Outcome State Fault Refusal :=
  match s.inbox with
  | [] => stepIdle s
  | sl :: rest => stepSlot sl { s with inbox := rest }

/-- Put a table word where the next step fetches: at the front of the host's coming inputs (notes/assumptions/5.md). -/
def State.withFetchWord (s : State) (nbits w : Nat) : State :=
  { s with inbox := tableSlot nbits w :: s.inbox }

end Sys2Proof.Machine
end

