-- ==== Sys2Proof/Machine/Header.lean ====
section
/-!
DEFINITION. The parsed header as one value (R82 to R84), its serialisation (R124), and the observation of a run (R14).
-/

namespace Sys2Proof.Machine

/-- R83: offset and size of each field, in declared order. -/
def headerLayout : List (Nat × Nat) :=
  [(0, 1), (1, 1), (2, 1), (3, 1), (4, 2), (6, 2), (8, 2), (10, 2), (12, 2), (14, 2), (16, 48), (64, 1), (65, 1), (66, 2), (68, 2), (70, 2), (72, 2), (74, 54)]

/-- R84: each field starts where the one before it ends, the first at `start`, the last ending at `stop`. -/
def contiguous (start stop : Nat) (rows : List (Nat × Nat)) : Bool :=
  match rows with
  | [] => start == stop
  | (offset, size) :: rest => offset == start && contiguous (offset + size) stop rest

/-- A parsed header: one value per row of R83. -/
structure Header where
  marker : Byte
  version : Byte
  encoding : Byte
  bpp : Byte
  xmin : Half
  ymin : Half
  xmax : Half
  ymax : Half
  vdpi : Half
  hdpi : Half
  pal16 : List Byte
  reserved : Byte
  nplanes : Byte
  bpl : Half
  palinfo : Half
  hscreen : Half
  vscreen : Half
  pad : List Byte
  deriving DecidableEq, Repr

/-- Every field extracted from `hdr_buf` by R106 to R123, in declared order. -/
def extractHeader (s : State) : Host.Outcome Header Fault Refusal :=
  andThen (fieldU8 0 s) fun marker =>
  andThen (fieldU8 1 s) fun version =>
  andThen (fieldU8 2 s) fun encoding =>
  andThen (fieldU8 3 s) fun bpp =>
  andThen (fieldU16 4 s) fun xmin =>
  andThen (fieldU16 6 s) fun ymin =>
  andThen (fieldU16 8 s) fun xmax =>
  andThen (fieldU16 10 s) fun ymax =>
  andThen (fieldU16 12 s) fun vdpi =>
  andThen (fieldU16 14 s) fun hdpi =>
  andThen (fieldBlock 16 48 s) fun pal16 =>
  andThen (fieldU8 64 s) fun reserved =>
  andThen (fieldU8 65 s) fun nplanes =>
  andThen (fieldU16 66 s) fun bpl =>
  andThen (fieldU16 68 s) fun palinfo =>
  andThen (fieldU16 70 s) fun hscreen =>
  andThen (fieldU16 72 s) fun vscreen =>
  andThen (fieldBlock 74 54 s) fun pad =>
  .next
    { marker := marker, version := version, encoding := encoding, bpp := bpp, xmin := xmin, ymin := ymin,
      xmax := xmax, ymax := ymax, vdpi := vdpi, hdpi := hdpi, pal16 := pal16, reserved := reserved,
      nplanes := nplanes, bpl := bpl, palinfo := palinfo, hscreen := hscreen, vscreen := vscreen, pad := pad }

/-- The header, while `hdr_valid` = 1 (R26). -/
def parsedHeader (s : State) : Host.Outcome Header Fault Refusal :=
  if hdrValid s then extractHeader s else .fault .fieldNotValid

/-- A `u16le` value serialised: `v & 0xFF` first, then `v >> 8` (R124). -/
def halfBytes (v : Half) : List Byte := [v.setWidth 8, (v >>> 8).setWidth 8]

/-- The serialiser of R124: every field's bytes at its offset, in order. -/
def serialise (h : Header) : List Byte :=
  [h.marker] ++ [h.version] ++ [h.encoding] ++ [h.bpp] ++ halfBytes h.xmin ++ halfBytes h.ymin ++ halfBytes h.xmax ++ halfBytes h.ymax ++ halfBytes h.vdpi
    ++ halfBytes h.hdpi ++ h.pal16 ++ [h.reserved] ++ [h.nplanes] ++ halfBytes h.bpl ++ halfBytes h.palinfo ++ halfBytes h.hscreen ++ halfBytes h.vscreen ++ h.pad

/-! ## Observation (R14) -/

/-- What is observed of an HDR run. -/
inductive HdrObservation where
  /-- The parse is not over; `hdr_cur` bytes have been accepted (R127). -/
  | active (cur : Nat)
  | done (bytes : List Byte) (header : Header)
  | fault (code : ErrCode) (context : InputContext)
  /-- A DONE state whose buffer lacks a byte, which no run reaches (R25). -/
  | noValue
  deriving DecidableEq, Repr

/-- What is observed of an RLE run. -/
inductive RleObservation where
  | active (output : List Byte)
  | ended (output : List Byte)
  | fault (output : List Byte) (code : ErrCode) (context : RunContext)
  deriving DecidableEq, Repr

/-- R14, for HDR. -/
def observeHdr (s : State) : HdrObservation :=
  match s.hdr.phase with
  | .active => .active s.hdr.cur.toNat
  | .done =>
    match extractHeader s, memReadBlock s.hdr.buf 0 Config.hdrLen with
    | .next h, .next bytes => .done bytes h
    | _, _ => .noValue
  | .fault => .fault s.hdr.err { expected := Config.hdrLen, actual := s.hdr.cur.toNat }

/-- The output stream: what the sink has, then what is still on the port (R35, R41). -/
def outputStream (s : State) : List Byte := s.sink ++ s.undrained

/-- R14, for RLE; `before` is the output stream's length when the unit was started. -/
def observeRle (before : Nat) (s : State) : RleObservation :=
  match s.rle.phase with
  | .active => .active ((outputStream s).drop before)
  | .ended => .ended ((outputStream s).drop before)
  | .fault => .fault ((outputStream s).drop before) s.rle.err (runContext s)

end Sys2Proof.Machine
end

