-- ==== Sys2Proof/Machine/Stream.lean ====
section
/-!
DEFINITION. Whole-stream functions of the RLE encoding, on bytes alone: `decode(s)` of R149 with the length count of
R151, and this spec's assembler notation with its pseudo-instructions (R80, R81).
-/

namespace Sys2Proof.Machine

/-! ## R149 -/

/-- The result of `decode(s)` (R149). -/
inductive StreamResult where
  | ok (out : List Byte)
  /-- `FAIL(TruncatedRun)`, with the `out` reached and the dangling marker's count. -/
  | truncatedRun (out : List Byte) (count : BitVec 6)
  deriving DecidableEq, Repr

/-- `rep(n, d)` for a marker byte (R9, R149). -/
def runBytes (marker d : Byte) : List Byte := List.replicate (markerCount marker).toNat d

/-- `go(s, out)` (R149). -/
def streamFrom (bytes out : List Byte) : StreamResult :=
  match bytes with
  | [] => .ok out
  | [b] => if isMarker b then .truncatedRun out (markerCount b) else .ok (out ++ [b])
  | b :: d :: rest => if isMarker b then streamFrom rest (out ++ runBytes b d) else streamFrom (d :: rest) (out ++ [b])

/-- `decode(s)` (R149). -/
def decodeStream (bytes : List Byte) : StreamResult := streamFrom bytes []

/-- R151: the number of literals of a byte sequence plus the sum of n over all its complete runs. -/
def outputCount (bytes : List Byte) : Nat :=
  match bytes with
  | [] => 0
  | [b] => if isMarker b then 0 else 1
  | b :: d :: rest => if isMarker b then (markerCount b).toNat + outputCount rest else 1 + outputCount (d :: rest)

/-! ## Assembler notation (R80, R81) -/

/-- A line of the notation. Operands are numbers as written. -/
inductive AsmLine where
  | lit (v : Nat)
  | run (n d : Nat)
  | endMark
  | byte (v : Nat)
  | fill (n d : Nat)
  | skip (d : Nat)
  | rawBytes (bytes : List Byte)
  deriving DecidableEq, Repr

/-- R80: a line the notation rejects encodes nothing. -/
inductive AsmError where
  | literalTooLarge (v : Nat)
  | countTooLarge (n : Nat)
  | notAByte (v : Nat)
  deriving DecidableEq, Repr

/-- `lit V` (R80). -/
def asmLit (v : Nat) : Except AsmError (List Byte) :=
  if v < 0xC0 then .ok [BitVec.ofNat 8 v] else .error (.literalTooLarge v)

/-- `run N, D` (R80): `0xC0 | N`, then D. -/
def asmRun (n d : Nat) : Except AsmError (List Byte) :=
  if n ≤ Config.countMax then
    if d < 256 then .ok [markerByte (BitVec.ofNat 6 n), BitVec.ofNat 8 d] else .error (.notAByte d)
  else .error (.countTooLarge n)

/-- `byte V` (R81): a literal where one exists, else a run of one. -/
def asmByte (v : Nat) : Except AsmError (List Byte) := if v < 0xC0 then asmLit v else asmRun 1 v

/-- q copies of `run 63, D` (R81). -/
def fullRuns (q : Nat) (d : Byte) : List Byte :=
  match q with
  | 0 => []
  | q + 1 => markerByte 63#6 :: d :: fullRuns q d

/-- `fill N, D` (R81): ⌊N/63⌋ full runs, then one run of the remainder where it is not zero. -/
def asmFill (n d : Nat) : Except AsmError (List Byte) :=
  if d < 256 then
    .ok (fullRuns (n / Config.countMax) (BitVec.ofNat 8 d) ++
      if n % Config.countMax = 0 then []
      else [markerByte (BitVec.ofNat 6 (n % Config.countMax)), BitVec.ofNat 8 d])
  else .error (.notAByte d)

/-- The symbols of one line. -/
def asmLine (line : AsmLine) : Except AsmError (List Sym) :=
  match line with
  | .lit v => (asmLit v).map (List.map Sym.byte)
  | .run n d => (asmRun n d).map (List.map Sym.byte)
  | .endMark => .ok [Sym.endOfInput]
  | .byte v => (asmByte v).map (List.map Sym.byte)
  | .fill n d => (asmFill n d).map (List.map Sym.byte)
  | .skip d => (asmRun 0 d).map (List.map Sym.byte)
  | .rawBytes bytes => .ok (bytes.map Sym.byte)

/-- The symbols of a program of the notation, or the first line's rejection. -/
def assemble (lines : List AsmLine) : Except AsmError (List Sym) :=
  match lines with
  | [] => .ok []
  | line :: rest =>
    match asmLine line with
    | .error e => .error e
    | .ok xs =>
      match assemble rest with
      | .error e => .error e
      | .ok ys => .ok (xs ++ ys)

end Sys2Proof.Machine
end

