-- ==== Sys2Proof/Machine/Container.lean ====
section
/-!
DEFINITION. The host's side of the block (spec/42_host_container.md R180 to R197): how the source is cut, fed to HDR and
RLE through their ports, and turned into a grid. These rules bind a model of the host and add nothing to the block.
-/

namespace Sys2Proof.Machine

/-! ## The source (R180, R181) -/

/-- A source: its bytes, or one that fails after some of them. The content of an I/O failure is the source's own
(R213, 93_implementation_defined.md I16). -/
inductive Source where
  | bytes (all : List Byte)
  | failing (content : Nat)
  deriving DecidableEq, Repr

/-- [128, L − 769): the CompressedRegion (R181). -/
def compressedRegion (src : List Byte) : List Byte :=
  (src.drop Config.hdrLen).take (src.length - Config.minSourceLen)

/-- [L − 769, L − 768): the separator, read and ignored (R181, R185). -/
def separatorByte (src : List Byte) : Option Byte := (src.drop (src.length - Config.trailerLen)).head?

/-- [L − 768, L): the palette bytes (R181). -/
def paletteBytes (src : List Byte) : List Byte := src.drop (src.length - Config.palBytes)

/-- A color of four 8-bit components. -/
structure Color where
  r : Byte
  g : Byte
  b : Byte
  a : Byte
  deriving DecidableEq, Repr

/-- DEFAULT, the "default/zero color" (R190). -/
def defaultColor : Color := { r := 0#8, g := 0#8, b := 0#8, a := 0#8 }

/-- R186: consecutive R, G, B triples in order, alpha 0xFF. -/
def colors (bytes : List Byte) : List Color :=
  match bytes with
  | r :: g :: b :: rest => { r := r, g := g, b := b, a := 0xFF#8 } :: colors rest
  | _ => []

/-- `pal[i]` (R186). -/
def paletteColor (palette : List Color) (i : Byte) : Color := palette.getD i.toNat defaultColor

/-! ## Failures (R213, R219) -/

/-- The field an UNSUPPORTED_FORMAT failure names (R187). -/
inductive FormatField where
  | bpp
  | nplanes
  deriving DecidableEq, Repr

/-- The failures of a whole decode, with their context (R211 to R213). -/
inductive HostFailure where
  | ioError (content : Nat)
  | truncatedInput (context : InputContext)
  | sourceTooShort (expected actual : Nat)
  | unsupportedFormat (field : FormatField) (value : Byte)
  | truncatedRun (context : RunContext)
  deriving DecidableEq, Repr

/-- The code of a failure (R210). -/
def failureCode (f : HostFailure) : ErrCode :=
  match f with
  | .ioError _ => .ioError
  | .truncatedInput _ => .truncatedInput
  | .sourceTooShort _ _ => .sourceTooShort
  | .unsupportedFormat _ _ => .unsupportedFormat
  | .truncatedRun _ => .truncatedRun

/-- R187: `bpp` is checked before `nplanes`. -/
def formatCheck (h : Header) : Option HostFailure :=
  if h.bpp ≠ 8#8 then some (.unsupportedFormat .bpp h.bpp)
  else if h.nplanes ≠ 1#8 then some (.unsupportedFormat .nplanes h.nplanes)
  else none

/-! ## Dimensions (R188, R189) -/

/-- Width, an unbounded integer from unsigned fields (R188). -/
def gridWidth (mode : DimMode) (h : Header) : Int :=
  match mode with
  | .documented => (h.xmax.toNat : Int) - h.xmin.toNat + 1
  | .legacy => (h.ymax.toNat : Int) - h.xmin.toNat + 1

/-- Height; both modes give the same (R188). -/
def gridHeight (h : Header) : Int := (h.ymax.toNat : Int) - h.ymin.toNat + 1

/-! ## Grid fill (R190 to R193) -/

/-- The cell with raster index `k`: the palette color of index `k`, or DEFAULT where there is none (R190, R191). -/
def gridCell (palette : List Color) (idx : List Byte) (k : Nat) : Color :=
  match idx[k]? with
  | some i => paletteColor palette i
  | none => defaultColor

/-- The grid, rows in raster order, with row stride `width` (R190, R192). -/
def gridRows (palette : List Color) (idx : List Byte) (width height : Nat) : List (List Color) :=
  (List.range height).map fun y => (List.range width).map fun x => gridCell palette idx (y * width + x)

/-! ## Feeding the block (R183, R184, R196) -/

/-- Every decode call restarts both units; the sink first takes whatever an earlier call left on the port (R196, R243). -/
def restartSlot (s : State) : Slot := { hdrStart := true, rleStart := true, take := s.undrained.length }

/-- `rle_start` before a region (R184); the sink first takes whatever is still on the port (R243). -/
def regionStartSlot (s : State) : Slot := { rleStart := true, take := s.undrained.length }

/-- R183: the source's bytes to HDR, which accepts 128 of them, and `END` where the source ends sooner. -/
def headerSlots (src : List Byte) : List Slot :=
  ((src.take Config.hdrLen).map fun b => hdrSlot (.byte b)) ++
    if src.length < Config.hdrLen then [hdrSlot .endOfInput] else []

/-- The Container: header, raw compressed region and resolved palette (R180). -/
structure Container where
  header : Header
  region : List Byte
  palette : List Color
  deriving DecidableEq, Repr

/-- The outcome of building a Container, which needs no grid; `after` is the machine the header was fed to. -/
inductive ContainerResult where
  | built (container : Container) (after : State)
  | failed (f : HostFailure)
  /-- The block stopped or was left ACTIVE, which no run from a started block does. -/
  | noResult
  deriving DecidableEq, Repr

/-- The Container of a source whose header is parsed: the size check of R182, then the framing of R181. -/
def containerOf (src : List Byte) (h : Header) (after : State) : ContainerResult :=
  if src.length < Config.minSourceLen then .failed (.sourceTooShort Config.minSourceLen src.length)
  else .built { header := h, region := compressedRegion src, palette := colors (paletteBytes src) } after

/-- Build the Container of a source (R180, R183): the header through HDR, the region and palette cut from the source. No
header value is checked, and no grid is built. -/
def buildContainer (source : Source) (s : State) : ContainerResult :=
  match source with
  | .failing content => .failed (.ioError content)
  | .bytes src =>
    match feed (restartSlot s :: headerSlots src) s with
    | .next t =>
      match observeHdr t with
      | .fault _ context => .failed (.truncatedInput context)
      | .done _ h => containerOf src h t
      | .active _ => .noResult
      | .noValue => .noResult
    | .fault _ => .noResult
    | .refused _ => .noResult

/-- The outcome of the host's decode. -/
inductive HostResult where
  | image (container : Container) (grid : List (List Color))
  | failed (f : HostFailure)
  /-- R189: a header with a non-positive dimension is given no meaning. -/
  | refusedDimensions (width height : Int)
  /-- The block stopped or was left ACTIVE, which no run from a started block does. -/
  | noResult
  deriving DecidableEq, Repr

/-- R184, R190: start RLE, feed it the region, and fill the grid from its output; after a fault the output is discarded
(R216). -/
def decodeRegion (mode : DimMode) (c : Container) (s : State) : HostResult :=
  match feed (regionStartSlot s :: rleStream c.region) s with
  | .next t =>
    match observeRle (outputStream s).length t with
    | .ended idx => .image c (gridRows c.palette idx (gridWidth mode c.header).toNat (gridHeight c.header).toNat)
    | .fault _ _ context => .failed (.truncatedRun context)
    | .active _ => .noResult
  | .fault _ => .noResult
  | .refused _ => .noResult

/-- The PixelGrid of a Container, on request (R180), at any time and any number of times: R189's refusal first
(notes/assumptions/9.md), then the region through RLE. -/
def pixelGrid (mode : DimMode) (c : Container) (s : State) : HostResult :=
  if gridWidth mode c.header ≤ 0 ∨ gridHeight c.header ≤ 0 then
    .refusedDimensions (gridWidth mode c.header) (gridHeight c.header)
  else decodeRegion mode c s

/-- The public entry point (R187, R194 to R196, R219), from any state after the first `rst`: the Container, the format
check before it is treated as an image, then its grid. -/
def hostDecode (mode : DimMode) (source : Source) (s : State) : HostResult :=
  match buildContainer source s with
  | .failed f => .failed f
  | .noResult => .noResult
  | .built c t =>
    match formatCheck c.header with
    | some f => .failed f
    | none => pixelGrid mode c t

/-- The decode at the default DIM_MODE (R7, R188). -/
def decodeImage (source : Source) (s : State) : HostResult := hostDecode Config.dimMode source s

end Sys2Proof.Machine
end

