-- ==== Sys2Proof/Safety.lean ====
section
/-!
DEFINITION. The invariants of a run, in the terms statements use: HDR's (R24, R25), RLE's (R31, R32), the output
port's (R41, R56, R243), and what it means for a unit to complete.
-/

namespace Sys2Proof.Machine

/-- R24, R25: the phase and the cursor agree, the error code is the phase's, and exactly the offsets below the cursor
have been written. -/
abbrev Hdr.Inv (h : Hdr) : Prop :=
  (h.phase = .active → h.cur.toNat < 128) ∧
  (h.phase = .done ↔ h.cur.toNat = 128) ∧
  (h.phase = .fault → h.cur.toNat < 128) ∧
  h.err = (if h.phase = .fault then ErrCode.truncatedInput else ErrCode.none) ∧
  h.buf.map (fun c => c.1) = List.range h.cur.toNat

/-- R31, R32. -/
abbrev Rle.Inv (r : Rle) : Prop :=
  (r.pend = false → r.cnt = 0#6) ∧
  (r.phase = .ended → r.pend = false) ∧
  (r.phase = .fault → r.pend = true) ∧
  r.err = (if r.phase = .fault then ErrCode.truncatedRun else ErrCode.none)

/-- R41, R56, R243: at most one step's emission is undrained, and a start waits only for a drain. -/
abbrev PortInv (s : State) : Prop :=
  s.undrained.length ≤ Config.countMax ∧ (s.startWait = true → s.undrained ≠ [])

/-- R30: `rle_pos` is a number of POS_W bits. -/
abbrev PosInv (s : State) : Prop := s.rle.pos < 2 ^ s.posW

/-- The machine's invariant, after the first `rst`. -/
abbrev State.Inv (s : State) : Prop :=
  s.rstSeen = true ∧ s.hdr.Inv ∧ s.rle.Inv ∧ PortInv s ∧ PosInv s

/-! ## How a unit stands (R228) -/

/-- The four kinds of R228. -/
inductive UnitOutcome where
  | success
  | fault
  /-- The unit takes no step: ACTIVE with no symbol offered, or not ACTIVE with one offered, which is not accepted. -/
  | stuck
  /-- ACTIVE with more symbols to come. -/
  | notOver
  deriving DecidableEq, Repr

/-- HDR, given the symbols the host offers it from now on (R228, notes/assumptions/17.md). -/
def hdrOutcome (offers : List Sym) (s : State) : UnitOutcome :=
  match s.hdr.phase, offers with
  | .active, [] => .stuck
  | .active, _ :: _ => .notOver
  | .done, [] => .success
  | .done, _ :: _ => .stuck
  | .fault, [] => .fault
  | .fault, _ :: _ => .stuck

/-- RLE, given the symbols the host offers it from now on (R228, notes/assumptions/17.md). -/
def rleOutcome (offers : List Sym) (s : State) : UnitOutcome :=
  match s.rle.phase, offers with
  | .active, [] => .stuck
  | .active, _ :: _ => .notOver
  | .ended, [] => .success
  | .ended, _ :: _ => .stuck
  | .fault, [] => .fault
  | .fault, _ :: _ => .stuck

/-- R228: a host that waits for this word to be accepted waits until it restarts the unit, since the unit is not
ACTIVE. -/
def hostHangs (w : PortWord) (s : State) : Bool :=
  match w.port with
  | .rle => s.rle.phase != .active
  | .hdr => s.hdr.phase != .active
  | .field => false

end Sys2Proof.Machine
end

