-- ==== Sys2Proof/Certificates/Slice0/Obligations.lean ====
section
/-!
DEFINITION. The statements for the provers. Each docstring names the rules of spec/ it formalises. A result is stated
as an equation of whole states, which is also its frame: every field not named is unchanged.
-/

open Sys2Proof Sys2Proof.Machine

/-! ## Encoding -/

/-- Decoding the encoding of a well-formed operation gives it back, for every operation and every operand, where
`rle_pend` is the value its row names (R72, R73, R75, R86, R140). -/
def Obligations.DecodeOfEncode : Prop :=
  ∀ (i : Instr) (p : Bool), i.wellFormed = true → i.fits p = true → decode p (encode i) = .ok i

/-- Every word that decodes is the encoding of what it decodes to, which is well-formed (R72 to R77, R86). -/
def Obligations.EncodeOfDecode : Prop :=
  ∀ (p : Bool) (w : PortWord) (i : Instr),
    decode p w = .ok i → encode i = w ∧ i.wellFormed = true ∧ i.fits p = true

/-- R72, R140, R141: every symbol on RLE's port is exactly one operation, chosen by its value and `rle_pend`; no byte
value is illegal. -/
def Obligations.RleSymbolClasses : Prop :=
  ∀ b : Byte,
    decode true (.rleSym (.byte b)) = .ok (.runData b) ∧
    (b.toNat < 0x80 → decode false (.rleSym (.byte b)) = .ok (.litLow b)) ∧
    (0x80 ≤ b.toNat → b.toNat < 0xC0 → decode false (.rleSym (.byte b)) = .ok (.litHigh b)) ∧
    (0xC0 ≤ b.toNat →
      decode false (.rleSym (.byte b)) = .ok (.runMark (BitVec.ofNat 6 (b.toNat - 0xC0)))) ∧
    decode false (.rleSym .endOfInput) = .ok .endIdle ∧
    decode true (.rleSym .endOfInput) = .ok .endPend

/-- R83, R86: an offset is a field read exactly where a row of the layout table starts. -/
def Obligations.FieldReadsAreTheLayoutOffsets : Prop :=
  ∀ (p : Bool) (o : BitVec 7),
    (∃ i, decode p (.fieldRead o) = .ok i) ↔ o.toNat ∈ headerLayout.map (fun row => row.1)

/-- R74: the first byte of an item alone tells its length, and the second byte of a RUN is data whatever its value. -/
def Obligations.FirstByteTellsItemLength : Prop :=
  ∀ (b d : Byte) (rest : List Byte),
    (0xC0 ≤ b.toNat →
      decodeItem (b :: d :: rest) = .item (.run (BitVec.ofNat 6 (b.toNat - 0xC0)) d) rest) ∧
    (b.toNat < 0xC0 → ∃ i, (i = .litLow b ∨ i = .litHigh b) ∧ decodeItem (b :: rest) = .item i rest)

/-- Port words written out from the encodings of R70, R72, R73, R83 (a sanity statement). The two-byte word of the RUN
clause is the model's choice (notes/assumptions/3.md). -/
def Obligations.SampleWordsDecode : Prop :=
  decode false (.rleSym (.byte 0b10111111#8)) = .ok (.litHigh 0xBF#8) ∧
  decode false (.rleSym (.byte 0b01111111#8)) = .ok (.litLow 0x7F#8) ∧
  decode false (.rleSym (.byte 0b11000011#8)) = .ok (.runMark 3#6) ∧
  decode false (.rleItem 0b11000011#8 0b01000001#8) = .ok (.run 3#6 0x41#8) ∧
  decode false (.fieldRead 0b1000010#7) = .ok .hdrBpl ∧
  decode true (.rleSym (.byte 0b11000101#8)) = .ok (.runData 0xC5#8) ∧
  decode false (.hdrSym .endOfInput) = .ok .hdrEnd

/-! ## RLE operations -/

/-- R142: a byte below 0xC0 accepted in IDLE is emitted once, unmodified, and the position advances. -/
def Obligations.LiteralEmitsItsByte : Prop :=
  ∀ (s : State) (b : Byte),
    s.rle.phase = .active → s.undrained = [] → s.rle.pend = false → b.toNat < 0xC0 →
    ∃ i, (i = .litLow b ∧ b.toNat < 0x80 ∨ i = .litHigh b ∧ 0x80 ≤ b.toNat) ∧
      decode s.rle.pend (.rleSym (.byte b)) = .ok i ∧
      exec i s = .next { s with undrained := [b], rle := { s.rle with pos := (s.rle.pos + 1) % 2 ^ s.posW } }

/-- R143: a marker accepted in IDLE sets `rle_pend` and `rle_cnt` = b & 0x3F, and emits nothing. -/
def Obligations.RunMarkerSetsPending : Prop :=
  ∀ (s : State) (b : Byte),
    s.rle.phase = .active → s.undrained = [] → s.rle.pend = false → 0xC0 ≤ b.toNat →
    ∃ n : BitVec 6, n.toNat = (b &&& 0x3F#8).toNat ∧
      decode s.rle.pend (.rleSym (.byte b)) = .ok (.runMark n) ∧
      exec (.runMark n) s =
        .next { s with rle := { s.rle with pend := true, cnt := n, pos := (s.rle.pos + 1) % 2 ^ s.posW } }

/-- R144: a byte accepted in PENDING, whatever its value, is emitted `rle_cnt` times, and the run is over. -/
def Obligations.RunDataEmitsCopies : Prop :=
  ∀ (s : State) (d : Byte),
    s.rle.phase = .active → s.undrained = [] → s.rle.pend = true →
    decode s.rle.pend (.rleSym (.byte d)) = .ok (.runData d) ∧
    exec (.runData d) s =
      .next { s with undrained := List.replicate s.rle.cnt.toNat d
                     rle := { s.rle with pend := false, cnt := 0#6, pos := (s.rle.pos + 1) % 2 ^ s.posW } }

/-- The row RUN, a whole item in one step, which is the model's choice (notes/assumptions/3.md), by R143 and R144. -/
def Obligations.RunItemResult : Prop :=
  ∀ (s : State) (n : BitVec 6) (d : Byte),
    s.rle.phase = .active → s.undrained = [] → s.rle.pend = false →
    exec (.run n d) s =
      .next { s with undrained := List.replicate n.toNat d
                     rle := { s.rle with pend := false, cnt := 0#6, pos := (s.rle.pos + 2) % 2 ^ s.posW } }

/-- The row RUN is RUN_MARK and then RUN_DATA, in every state (R73; notes/assumptions/3.md). -/
def Obligations.RunItemIsMarkerThenData : Prop :=
  ∀ (s : State) (n : BitVec 6) (d : Byte),
    exec (.run n d) s = andThen (exec (.runMark n) s) (exec (.runData d))

/-- R146: `END` in IDLE ends the stream and changes nothing else. -/
def Obligations.EndInIdleEndsStream : Prop :=
  ∀ s : State,
    s.rle.phase = .active → s.undrained = [] → s.rle.pend = false →
    decode s.rle.pend (.rleSym .endOfInput) = .ok .endIdle ∧
    exec .endIdle s = .next { s with rle := { s.rle with phase := .ended } }

/-- R147: `END` in PENDING raises TRUNCATED_RUN; position, pending flag and count are left as they were, and record the
marker's offset, the count and the input length. -/
def Obligations.EndInPendingRaisesTruncatedRun : Prop :=
  ∀ s : State,
    s.rle.phase = .active → s.undrained = [] → s.rle.pend = true →
    decode s.rle.pend (.rleSym .endOfInput) = .ok .endPend ∧
    ∃ t, exec .endPend s = .next t ∧
      t = { s with rle := { s.rle with phase := .fault, err := .truncatedRun } } ∧
      errCode t.rle.err = 2#3 ∧
      rleFaultContext t = some
        { markerPos := (s.rle.pos + 2 ^ s.posW - 1) % 2 ^ s.posW, count := s.rle.cnt, inputLen := s.rle.pos,
          expectedLen := s.rle.pos + 1 }

/-- R148: RLE in ENDED or FAULT accepts no symbol, changes nothing, and is left only through `rle_start` or `rst`, an `rle_start`
that waits for the drain included (notes/assumptions/7.md). -/
def Obligations.StoppedRleIsLeftOnlyByStartOrRst : Prop :=
  ∀ s : State, s.rle.phase ≠ .active →
    rleInReady s = false ∧
    (∀ i : Instr, i.port = .rle → exec i s = .next s) ∧
    (∀ t : State, step s = .next t → t.rle ≠ s.rle →
      s.startWait = true ∨ ∃ sl, s.inbox.head? = some sl ∧ (sl.rst = true ∨ sl.rleStart = true))

/-- R41: while output of an earlier step is undrained, RLE accepts no symbol and changes nothing (R41 lets a
model leave the drain out; this one keeps it, notes/assumptions/8.md). -/
def Obligations.DrainingRleAcceptsNothing : Prop :=
  ∀ (s : State) (i : Instr), s.undrained ≠ [] → i.port = .rle → rleInReady s = false ∧ exec i s = .next s

/-- An RLE operation applied where `rle_pend` is not its row's value is refused by name: R140 has no row for it, and the
refusal is the model's choice (notes/assumptions/10.md). -/
def Obligations.WrongClassIsRefused : Prop :=
  ∀ (s : State) (i : Instr),
    s.rle.phase = .active → s.undrained = [] → i.port = .rle → i.fits s.rle.pend = false →
    exec i s = .refused .wrongClass

/-- The step decodes by `rle_pend`, so it never applies an operation of the wrong class (R140: the table is total). -/
def Obligations.StepNeverAppliesWrongClass : Prop :=
  ∀ s : State, step s ≠ .refused .wrongClass

/-- R145: in PENDING a byte 0xC0..0xFF is data; the step that accepts it emits it and leaves no run pending. -/
def Obligations.MarkerValuedDataByteIsEmitted : Prop :=
  ∀ (s : State) (b : Byte) (rest : List Slot),
    s.rstSeen = true → s.rle.phase = .active → s.undrained = [] → s.startWait = false → s.rle.pend = true →
    0xC0 ≤ b.toNat → s.inbox = rleSlot (.byte b) :: rest →
    step s = .next { s with
      inbox := rest
      sink := s.sink ++ List.replicate s.rle.cnt.toNat b
      rle := { s.rle with pend := false, cnt := 0#6, pos := (s.rle.pos + 1) % 2 ^ s.posW } }

/-! ## HDR operations -/

/-- R101: the byte lands at the cursor, every other offset keeps its byte, the cursor advances by one, and the 128th
byte makes the phase DONE; nothing outside HDR changes. -/
def Obligations.CaptureStoresAtCursor : Prop :=
  ∀ (s : State) (b : Byte),
    s.hdr.phase = .active → s.hdr.cur.toNat < 128 →
    decode s.rle.pend (.hdrSym (.byte b)) = .ok (.hdrCapture b) ∧
    ∃ t, exec (.hdrCapture b) s = .next t ∧
      Memory.get t.hdr.buf s.hdr.cur.toNat = some b ∧
      (∀ a, a ≠ s.hdr.cur.toNat → Memory.get t.hdr.buf a = Memory.get s.hdr.buf a) ∧
      t.hdr.cur.toNat = s.hdr.cur.toNat + 1 ∧
      t.hdr.phase = (if s.hdr.cur.toNat = 127 then .done else .active) ∧
      t.hdr.err = s.hdr.err ∧
      t = { s with hdr := t.hdr }

/-- The capture keeps the memory's canonical form (the model's own representation, notes/assumptions/6.md). -/
def Obligations.CaptureKeepsMemoryForm : Prop :=
  ∀ (s t : State) (b : Byte),
    Memory.wf s.hdr.buf → exec (.hdrCapture b) s = .next t → Memory.wf t.hdr.buf

/-- An ACTIVE cursor beyond the buffer, which no run reaches (R25) and R101 gives no capture, is refused by name: the
model's choice (notes/assumptions/16.md). -/
def Obligations.CaptureBeyondBufferIsRefused : Prop :=
  ∀ (s : State) (b : Byte), s.hdr.phase = .active → 128 ≤ s.hdr.cur.toNat →
    exec (.hdrCapture b) s = .refused (.memWriteOutOfRange s.hdr.cur.toNat)

/-- R103: `END` in ACTIVE raises TRUNCATED_INPUT with the number of bytes accepted; cursor and buffer are unchanged. -/
def Obligations.HdrEndRaisesTruncatedInput : Prop :=
  ∀ s : State, s.hdr.phase = .active →
    decode s.rle.pend (.hdrSym .endOfInput) = .ok .hdrEnd ∧
    ∃ t, exec .hdrEnd s = .next t ∧
      t = { s with hdr := { s.hdr with phase := .fault, err := .truncatedInput } } ∧
      errCode t.hdr.err = 1#3 ∧
      hdrFaultContext t = some { expected := 128, actual := s.hdr.cur.toNat }

/-- R102, R104, R126: HDR in DONE or FAULT accepts no symbol, changes nothing, and is left only through `hdr_start` or
`rst`; so the field outputs are stable in DONE. -/
def Obligations.StoppedHdrIsLeftOnlyByStartOrRst : Prop :=
  ∀ s : State, s.hdr.phase ≠ .active →
    hdrInReady s = false ∧
    (∀ i : Instr, i.port = .hdr → exec i s = .next s) ∧
    (∀ t : State, step s = .next t → t.hdr ≠ s.hdr →
      ∃ sl, s.inbox.head? = some sl ∧ (sl.rst = true ∨ sl.hdrStart = true))

/-- R106 to R109, R117, R118: a `u8` field read in DONE gives the byte at the field's offset and changes no block
state. -/
def Obligations.ByteFieldReads : Prop :=
  ∀ (s : State) (v : Byte), s.hdr.phase = .done →
    (Memory.get s.hdr.buf 0 = some v → exec .hdrMarker s = .next { s with reads := s.reads ++ [.byte v] }) ∧
    (Memory.get s.hdr.buf 1 = some v → exec .hdrVersion s = .next { s with reads := s.reads ++ [.byte v] }) ∧
    (Memory.get s.hdr.buf 2 = some v → exec .hdrEncoding s = .next { s with reads := s.reads ++ [.byte v] }) ∧
    (Memory.get s.hdr.buf 3 = some v → exec .hdrBpp s = .next { s with reads := s.reads ++ [.byte v] }) ∧
    (Memory.get s.hdr.buf 64 = some v → exec .hdrReserved s = .next { s with reads := s.reads ++ [.byte v] }) ∧
    (Memory.get s.hdr.buf 65 = some v → exec .hdrNplanes s = .next { s with reads := s.reads ++ [.byte v] })

/-- R110 to R115, R119 to R122, R52: a `u16le` field read in DONE gives `hdr_buf[o] + 256 × hdr_buf[o+1]`. -/
def Obligations.HalfFieldReads : Prop :=
  ∀ (s : State) (lo hi : Byte) (o : Nat) (i : Instr), s.hdr.phase = .done →
    (o, i) ∈ [(4, Instr.hdrXmin), (6, .hdrYmin), (8, .hdrXmax), (10, .hdrYmax), (12, .hdrVdpi), (14, .hdrHdpi),
      (66, .hdrBpl), (68, .hdrPalinfo), (70, .hdrHscreen), (72, .hdrVscreen)] →
    Memory.get s.hdr.buf o = some lo → Memory.get s.hdr.buf (o + 1) = some hi →
    ∃ v : Half, v.toNat = lo.toNat + 256 * hi.toNat ∧
      exec i s = .next { s with reads := s.reads ++ [.half v] }

/-- R116, R123: a block read in DONE gives the bytes at its offsets, in order. -/
def Obligations.BlockFieldReads : Prop :=
  ∀ (s : State) (bs : List Byte), s.hdr.phase = .done →
    (bs.length = 48 → (∀ k, k < 48 → Memory.get s.hdr.buf (16 + k) = bs[k]?) →
      exec .hdrPal16 s = .next { s with reads := s.reads ++ [.block bs] }) ∧
    (bs.length = 54 → (∀ k, k < 54 → Memory.get s.hdr.buf (74 + k) = bs[k]?) →
      exec .hdrPad s = .next { s with reads := s.reads ++ [.block bs] })

/-- R25, R26: in every DONE state that meets HDR's invariant each of the 18 field reads completes. -/
def Obligations.EveryFieldReadCompletesInDone : Prop :=
  ∀ (s : State) (i : Instr), s.hdr.Inv → s.hdr.phase = .done → i.port = .field →
    ∃ v, exec i s = .next { s with reads := s.reads ++ [v] }

/-- R26, R248: a field read while `hdr_valid` = 0 is a fault. -/
def Obligations.FieldReadBeforeDoneFaults : Prop :=
  ∀ (s : State) (i : Instr), s.hdr.phase ≠ .done → i.port = .field → exec i s = .fault .fieldNotValid

/-- R40, 93_implementation_defined.md I1: in DONE a field read either completes or stops on a byte that holds no
value. -/
def Obligations.FieldReadStopsOnlyOnMissingByte : Prop :=
  ∀ (s : State) (i : Instr), s.hdr.phase = .done → i.port = .field →
    (∃ v, exec i s = .next { s with reads := s.reads ++ [v] }) ∨
    (∃ a, a < 128 ∧ Memory.get s.hdr.buf a = none ∧ exec i s = .fault (.unwrittenHeaderByte a))

/-- R124, R127: the observation of a whole header parse, over every symbol sequence. One that begins with 128 bytes gives
DONE with them captured and fields that serialise back to them; one of fewer bytes and then `END` gives TRUNCATED_INPUT
with their number; in both, the symbols after stay with the host. Fewer bytes without `END` leave the parse open. -/
def Obligations.WholeHeaderObservation : Prop :=
  ∀ (s : State) (bs : List Byte), s.rstSeen = true → s.hdr = Hdr.reset → (s.startWait = true → s.undrained ≠ []) →
    (bs.length = 128 → ∀ after : List Sym,
      ∃ t h, feed ((bs.map fun b => hdrSlot (.byte b)) ++ after.map hdrSlot) s = .next t ∧
      observeHdr t = .done bs h ∧ serialise h = bs ∧
      h.pal16.length = 48 ∧ h.pad.length = 54 ∧
      (∀ k, k < 128 → Memory.get t.hdr.buf k = bs[k]?) ∧
      t = { s with hdr := t.hdr, held := s.held ++ after.map PortWord.hdrSym }) ∧
    (bs.length < 128 → ∀ after : List Sym,
      ∃ t, feed ((bs.map fun b => hdrSlot (.byte b)) ++ hdrSlot .endOfInput :: after.map hdrSlot) s = .next t ∧
      observeHdr t = .fault .truncatedInput { expected := 128, actual := bs.length } ∧
      t = { s with hdr := t.hdr, held := s.held ++ after.map PortWord.hdrSym }) ∧
    (bs.length < 128 → ∃ t, feed (bs.map fun b => hdrSlot (.byte b)) s = .next t ∧
      observeHdr t = .active bs.length ∧ t = { s with hdr := t.hdr })

/-! ## Whole streams -/

/-- R149: from the reset state of RLE, the machine fed any byte sequence and `END` does what `decode(s)` says: the
output, success or TRUNCATED_RUN, and the position; HDR is not affected. -/
def Obligations.MachineRefinesStreamDecode : Prop :=
  ∀ (s : State) (bs : List Byte),
    s.rstSeen = true → s.rle = Rle.reset → s.undrained = [] → s.startWait = false →
    (∀ out, decodeStream bs = .ok out →
      feed (rleStream bs) s = .next { s with
        sink := s.sink ++ out
        rle := { phase := .ended, pend := false, cnt := 0#6, pos := bs.length % 2 ^ s.posW, err := .none } }) ∧
    (∀ out n, decodeStream bs = .truncatedRun out n →
      feed (rleStream bs) s = .next { s with
        sink := s.sink ++ out
        rle := { phase := .fault, pend := true, cnt := n, pos := bs.length % 2 ^ s.posW, err := .truncatedRun } })

/-- R150: a sequence with no byte ≥ 0xC0 decodes to itself. -/
def Obligations.LiteralsDecodeToThemselves : Prop :=
  ∀ bs : List Byte, (∀ b ∈ bs, b.toNat < 0xC0) → decodeStream bs = .ok bs

/-- R151: the output's length is the number of literals plus the sum of the run counts, within the bounds. -/
def Obligations.OutputLengthAndBounds : Prop :=
  ∀ bs out : List Byte, decodeStream bs = .ok out →
    out.length = outputCount bs ∧ out.length ≤ 63 * (bs.length / 2) + bs.length % 2

/-- R77, R247: a run of count 0 consumes both bytes, whatever the data byte, and emits nothing. -/
def Obligations.CountZeroRunEmitsNothing : Prop :=
  ∀ (d : Byte) (rest : List Byte), decodeStream (0xC0#8 :: d :: rest) = decodeStream rest

/-- R81: `fill N, D` expands to a stream that decodes to N copies of D. -/
def Obligations.FillExpandsToCopies : Prop :=
  ∀ n d : Nat, d < 256 →
    ∃ bs, asmFill n d = .ok bs ∧ decodeStream bs = .ok (List.replicate n (BitVec.ofNat 8 d))

/-! ## The machine -/

/-- A step runs the decoded operation: with the next slot's controls applied, a word on a ready port that decodes to
`i` is run by `exec i`, and then the sink takes what the slot says. The slot and its order are the model's own
(notes/assumptions/2.md, notes/assumptions/11.md). -/
def Obligations.StepRunsDecodedOperation : Prop :=
  ∀ (s : State) (sl : Slot) (rest : List Slot) (w : PortWord) (i : Instr),
    s.inbox = sl :: rest → sl.req = .offer w → (s.rstSeen = true ∨ sl.rst = true) →
    blockedByControl sl w = false →
    portReady w (applyControls sl { s with inbox := rest }) = true →
    decode (applyControls sl { s with inbox := rest }).rle.pend w = .ok i →
    step s = andThen (exec i (applyControls sl { s with inbox := rest })) fun t => .next (takeOutput sl.take t)

/-- A table word put where the step fetches is the next thing the step runs (notes/assumptions/5.md). -/
def Obligations.FetchWordIsRunNext : Prop :=
  ∀ (s : State) (nbits w : Nat) (i : Instr),
    s.rstSeen = true → s.rle.pend = false → portReady (tableWord nbits w) s = true →
    decodeTableWord nbits w = some i →
    step (s.withFetchWord nbits w) = andThen (exec i s) fun t => .next (takeOutput 63 t)

/-- R24, R25, R30, R31, R32, R41: every step keeps the invariant, from every state that has it (its clause on
`startWait` is about the model's own latch, notes/assumptions/7.md), and the parameter POS_W (R7, notes/assumptions/1.md). -/
def Obligations.StepKeepsInvariant : Prop :=
  ∀ s t : State, s.Inv → step s = .next t → t.Inv ∧ t.posW = s.posW

/-- R40, R7: the reset state of every POS_W has the invariant; `State.reset` is the one at the default, 32. -/
def Obligations.ResetHasInvariant : Prop :=
  (∀ w, (State.resetAt w).Inv ∧ (State.resetAt w).posW = w) ∧ State.reset = State.resetAt 32

/-- R240: whatever the state, power-on included, a step with `rst` gives a state that has the invariant,
and keeps POS_W. -/
def Obligations.RstEstablishesInvariant : Prop :=
  ∀ (s t : State) (sl : Slot), s.inbox.head? = some sl → sl.rst = true → step s = .next t → t.Inv ∧ t.posW = s.posW

/-- R240, R241: in a step with `rst`, whatever the host offers or reads, both units are in the reset state, undrained
output is lost, what the sink has it keeps, and an offered symbol is not accepted. -/
def Obligations.RstResetsBothUnits : Prop :=
  ∀ (s : State) (sl : Slot) (rest : List Slot), s.inbox = sl :: rest → sl.rst = true →
    (sl.req = .idle → step s = .next { s with
      hdr := Hdr.reset, rle := Rle.reset, undrained := [], startWait := false, rstSeen := true, inbox := rest }) ∧
    (∀ w, sl.req = .offer w → w.port ≠ .field → step s = .next { s with
      hdr := Hdr.reset, rle := Rle.reset, undrained := [], startWait := false, rstSeen := true, inbox := rest,
      held := s.held ++ [w] }) ∧
    (∀ t, step s = .next t → t.hdr = Hdr.reset ∧ t.rle = Rle.reset ∧ t.undrained = [] ∧ t.sink = s.sink)

/-- R242, R241: `hdr_start` puts HDR alone into its reset state, from any phase; a symbol offered to HDR in that step
stays with the host. -/
def Obligations.HdrStartRestartsHdrAlone : Prop :=
  ∀ (s : State) (rest : List Slot), s.rstSeen = true → (s.startWait = true → s.undrained ≠ []) →
    (s.inbox = { hdrStart := true } :: rest →
      step s = .next { s with hdr := Hdr.reset, inbox := rest }) ∧
    (∀ x, s.inbox = { hdrStart := true, req := .offer (.hdrSym x) } :: rest →
      step s = .next { s with hdr := Hdr.reset, inbox := rest, held := s.held ++ [.hdrSym x] })

/-- R243: with nothing undrained, `rle_start` puts RLE alone into its reset state at once, from any phase. -/
def Obligations.RleStartRestartsRleAlone : Prop :=
  ∀ (s : State) (rest : List Slot), s.rstSeen = true → s.undrained = [] →
    (s.inbox = { rleStart := true } :: rest →
      step s = .next { s with rle := Rle.reset, startWait := false, inbox := rest }) ∧
    (∀ x, s.inbox = { rleStart := true, req := .offer (.rleSym x) } :: rest →
      step s = .next { s with rle := Rle.reset, startWait := false, inbox := rest, held := s.held ++ [.rleSym x] })

/-- R243: with output undrained, `rle_start` waits (remembered, the model's choice, notes/assumptions/7.md); it takes
effect in the step in which the sink has taken the last byte, and no byte is lost. -/
def Obligations.RleStartWaitsForTheDrain : Prop :=
  ∀ (s : State) (rest : List Slot) (k : Nat), s.rstSeen = true → s.undrained ≠ [] →
    (s.inbox = { rleStart := true, take := k } :: rest ∨ (s.startWait = true ∧ s.inbox = { take := k } :: rest)) →
    (k < s.undrained.length → step s = .next { s with
      startWait := true, inbox := rest, sink := s.sink ++ s.undrained.take k, undrained := s.undrained.drop k }) ∧
    (s.undrained.length ≤ k → step s = .next { s with
      startWait := false, rle := Rle.reset, inbox := rest, sink := s.sink ++ s.undrained, undrained := [] })

/-- R244: before the first `rst` every step is refused, whatever the units hold. -/
def Obligations.NoStepBeforeFirstRst : Prop :=
  ∀ s : State, s.rstSeen = false → (∀ sl, s.inbox.head? = some sl → sl.rst = false) →
    step s = .refused .beforeFirstRst

/-- R227: with nothing offered the machine keeps its state (notes/assumptions/12.md). -/
def Obligations.NothingOfferedKeepsState : Prop :=
  ∀ s : State, s.rstSeen = true → s.inbox = [] → step s = .next s

/-- R58, R102, R249: a symbol offered to a unit that is not ready is not consumed, changes nothing in the block, and
stays with the host. -/
def Obligations.UnacceptedSymbolStaysWithHost : Prop :=
  ∀ (s : State) (w : PortWord) (rest : List Slot), s.rstSeen = true → (s.startWait = true → s.undrained ≠ []) →
    w.port ≠ .field → portReady w s = false → s.inbox = { req := .offer w } :: rest →
    step s = .next { s with inbox := rest, held := s.held ++ [w] }

/-- R35: the sink takes the oldest undrained bytes, in order, and nothing else changes. -/
def Obligations.SinkTakesOldestBytesInOrder : Prop :=
  ∀ (s : State) (k : Nat) (rest : List Slot), s.rstSeen = true → s.startWait = false →
    s.inbox = { take := k } :: rest →
    step s = .next { s with inbox := rest, sink := s.sink ++ s.undrained.take k, undrained := s.undrained.drop k }

/-- R35, R56, R61: a step without `rst` only appends to the output stream, at most 63 bytes, or 0 where output is still
undrained; a step with `rst` leaves the sink what it has. -/
def Obligations.OutputStreamOnlyGrows : Prop :=
  ∀ (s t : State) (sl : Slot), s.inbox.head? = some sl → step s = .next t →
    (sl.rst = false → ∃ bs, outputStream t = outputStream s ++ bs ∧ bs.length ≤ 63 ∧
      (s.undrained ≠ [] → bs = [])) ∧
    (sl.rst = true → t.sink = s.sink)

/-- R215, R211, R212: a unit enters FAULT only in a step that accepts `END`, that is one that offers it to a ready unit
with no `rst` and no start of that unit: RLE with a run pending, HDR in ACTIVE. -/
def Obligations.OnlyEndRaisesAFault : Prop :=
  ∀ (s t : State), step s = .next t →
    (s.rle.phase ≠ .fault → t.rle.phase = .fault →
      s.rle.phase = .active ∧ s.rle.pend = true ∧ rleInReady s = true ∧
        ∃ sl, s.inbox.head? = some sl ∧ sl.req = .offer (.rleSym .endOfInput) ∧ sl.rst = false ∧ sl.rleStart = false) ∧
    (s.hdr.phase ≠ .fault → t.hdr.phase = .fault →
      s.hdr.phase = .active ∧ hdrInReady s = true ∧
        ∃ sl, s.inbox.head? = some sl ∧ sl.req = .offer (.hdrSym .endOfInput) ∧ sl.rst = false ∧ sl.hdrStart = false)

/-- R20: an operation changes its own unit alone: an RLE operation RLE and its output, an HDR operation HDR, a field
read nothing of the block. -/
def Obligations.OperationsChangeTheirOwnUnitAlone : Prop :=
  ∀ (i : Instr) (s t : State), exec i s = .next t →
    (i.port = .rle → t = { s with rle := t.rle, undrained := t.undrained }) ∧
    (i.port = .hdr → t = { s with hdr := t.hdr }) ∧
    (i.port = .field → t = { s with reads := t.reads })

/-- R62: an HDR or field operation and an RLE operation give the same state in either order. -/
def Obligations.UnitsCommute : Prop :=
  ∀ (i j : Instr) (s t u : State), i.port ≠ .rle → j.port = .rle → exec i s = .next t → exec j s = .next u →
    ∃ v, exec j t = .next v ∧ exec i u = .next v

/-! ## The status space -/

/-- R37, with the codes of R22, R27 and R210 as numbers: each field of STATUS is where the table puts it, bits [31:25]
are 0, STATUS is 0 after reset, and in states that meet the invariant every field holds a legal value. -/
def Obligations.StatusFieldsAreWhereTheTablePutsThem : Prop :=
  statusWord State.reset = 0#32 ∧ ∀ s : State,
    (statusWord s).extractLsb' 0 2 =
      (match s.hdr.phase with | .active => 0#2 | .done => 1#2 | .fault => 2#2) ∧
    (statusWord s).extractLsb' 2 2 =
      (match s.rle.phase with | .active => 0#2 | .ended => 1#2 | .fault => 2#2) ∧
    (statusWord s).extractLsb' 4 1 = (if s.rle.pend then 1#1 else 0#1) ∧
    (statusWord s).extractLsb' 5 6 = s.rle.cnt ∧
    (statusWord s).extractLsb' 11 3 =
      (match s.hdr.err with
        | .none => 0#3 | .truncatedInput => 1#3 | .truncatedRun => 2#3
        | .sourceTooShort => 3#3 | .unsupportedFormat => 4#3 | .ioError => 5#3) ∧
    (statusWord s).extractLsb' 14 3 =
      (match s.rle.err with
        | .none => 0#3 | .truncatedInput => 1#3 | .truncatedRun => 2#3
        | .sourceTooShort => 3#3 | .unsupportedFormat => 4#3 | .ioError => 5#3) ∧
    (statusWord s).extractLsb' 17 8 = s.hdr.cur ∧
    (statusWord s).extractLsb' 25 7 = 0#7 ∧
    (s.Inv →
      ((statusWord s).extractLsb' 11 3 = 0#3 ∨ (statusWord s).extractLsb' 11 3 = 1#3) ∧
      ((statusWord s).extractLsb' 14 3 = 0#3 ∨ (statusWord s).extractLsb' 14 3 = 2#3) ∧
      ((statusWord s).extractLsb' 17 8).toNat ≤ 128)

/-- R37, R38, R39: registers 0 and 1 can be read in any phase, give the live state and change nothing of the block;
any other number is refused. -/
def Obligations.StatusReadsHaveNoSideEffect : Prop :=
  ∀ (s : State) (rest : List Slot) (n : Nat), s.rstSeen = true → (s.startWait = true → s.undrained ≠ []) →
    s.inbox = { req := .readReg n } :: rest →
    (n = 0 → step s = .next { s with inbox := rest, reads := s.reads ++ [.status (statusWord s)] }) ∧
    (n = 1 → step s = .next { s with inbox := rest, reads := s.reads ++ [.rlePos s.posW (BitVec.ofNat s.posW s.rle.pos)] }) ∧
    (2 ≤ n → step s = .refused (.noSuchRegister n))

/-- R26, R58: `hdr_valid` can be read at any time, is 1 exactly in DONE, and the read changes nothing of the block. -/
def Obligations.HdrValidReadIsDone : Prop :=
  ∀ (s : State) (rest : List Slot), s.rstSeen = true → (s.startWait = true → s.undrained ≠ []) →
    s.inbox = { req := .readHdrValid } :: rest →
    step s = .next { s with inbox := rest, reads := s.reads ++ [.hdrValid (decide (s.hdr.phase = .done))] }

/-! ## The host's contract -/

/-- R181: for a source of L ≥ 897 bytes, HDR is offered [0, 128), the region is [128, L − 769), the separator the byte
at L − 769, and the palette [L − 768, L). -/
def Obligations.CompressedRegionIsTheMiddle : Prop :=
  ∀ src : List Byte, 897 ≤ src.length →
    headerSlots src = (src.take 128).map (fun b => hdrSlot (.byte b)) ∧
    (compressedRegion src).length = src.length - 128 - 769 ∧
    (∀ k, k < src.length - 897 → (compressedRegion src)[k]? = src[128 + k]?) ∧
    separatorByte src = src[src.length - 769]? ∧
    (paletteBytes src).length = 768 ∧
    (∀ k, (paletteBytes src)[k]? = src[src.length - 768 + k]?)

/-- R186: the palette has 256 entries, the i-th from the three bytes at L − 768 + 3i, alpha 0xFF. -/
def Obligations.PaletteEntriesAreTriples : Prop :=
  ∀ src : List Byte, 897 ≤ src.length →
    (colors (paletteBytes src)).length = 256 ∧
    ∀ (i : Byte) (r g b : Byte),
      src[src.length - 768 + 3 * i.toNat]? = some r →
      src[src.length - 768 + 3 * i.toNat + 1]? = some g →
      src[src.length - 768 + 3 * i.toNat + 2]? = some b →
      paletteColor (colors (paletteBytes src)) i = { r := r, g := g, b := b, a := 0xFF#8 }

/-- R190, R191, R192: each cell takes the index of its raster position, with stride `width`, or DEFAULT where the output
is too short. -/
def Obligations.GridCellsFollowRasterOrder : Prop :=
  ∀ (palette : List Color) (idx : List Byte) (width height x y : Nat), x < width → y < height →
    (gridRows palette idx width height).length = height ∧
    ∃ row, (gridRows palette idx width height)[y]? = some row ∧ row.length = width ∧
      (∀ i, idx[y * width + x]? = some i → row[x]? = some (paletteColor palette i)) ∧
      (idx.length ≤ y * width + x → row[x]? = some { r := 0#8, g := 0#8, b := 0#8, a := 0#8 })

/-- R180, R182, R183: from any state that has the invariant, the Container of a source of 897 bytes or more is built,
whatever its header says, without a grid; then, on request, from any state that has the invariant, a Container's grid is filled
from the decoded region, or refused for its dimensions (R189, before the region is fed, notes/assumptions/9.md), or fails
with TRUNCATED_RUN. -/
def Obligations.ContainerThenGridOnRequest : Prop :=
  (∀ (src : List Byte) (s : State), s.Inv → 897 ≤ src.length →
    ∃ h t, buildContainer (.bytes src) s = .built
        { header := h, region := compressedRegion src, palette := colors (paletteBytes src) } t ∧
      serialise h = src.take 128 ∧ h.pal16.length = 48 ∧ h.pad.length = 54 ∧ t.Inv ∧
      observeHdr t = .done (src.take 128) h ∧ t.rle = Rle.reset) ∧
  ∀ (mode : DimMode) (c : Container) (s : State), s.Inv →
    ((gridWidth mode c.header ≤ 0 ∨ gridHeight c.header ≤ 0) →
      pixelGrid mode c s = .refusedDimensions (gridWidth mode c.header) (gridHeight c.header)) ∧
    (0 < gridWidth mode c.header → 0 < gridHeight c.header →
      (∀ idx, decodeStream c.region = .ok idx →
        pixelGrid mode c s = .image c
          (gridRows c.palette idx (gridWidth mode c.header).toNat (gridHeight c.header).toNat)) ∧
      (∀ out n, decodeStream c.region = .truncatedRun out n →
        pixelGrid mode c s = .failed (.truncatedRun
          { markerPos := (c.region.length % 2 ^ s.posW + 2 ^ s.posW - 1) % 2 ^ s.posW, count := n,
            inputLen := c.region.length % 2 ^ s.posW, expectedLen := c.region.length % 2 ^ s.posW + 1 })))

/-- R182, R187, R188, R189, R194, R213, R219: a source that fails gives IO_ERROR with its own content (its form is the
model's choice, notes/assumptions/14.md). Any other decode through the block's two units, from any state that has the
invariant, gives what the framing says: the first failure in order, or the image of the decoded region. The place of
R189's refusal in that order is the model's choice (notes/assumptions/9.md). -/
def Obligations.HostDecodeFollowsFraming : Prop :=
  (∀ (mode : DimMode) (content : Nat) (s : State), hostDecode mode (.failing content) s = .failed (.ioError content)) ∧
  ∀ (mode : DimMode) (src : List Byte) (s : State), s.Inv →
    (src.length < 128 →
      hostDecode mode (.bytes src) s = .failed (.truncatedInput { expected := 128, actual := src.length })) ∧
    (128 ≤ src.length → src.length < 897 →
      hostDecode mode (.bytes src) s = .failed (.sourceTooShort 897 src.length)) ∧
    (897 ≤ src.length → ∃ h, serialise h = src.take 128 ∧ h.pal16.length = 48 ∧ h.pad.length = 54 ∧
      (h.bpp ≠ 8#8 → hostDecode mode (.bytes src) s = .failed (.unsupportedFormat .bpp h.bpp)) ∧
      (h.bpp = 8#8 → h.nplanes ≠ 1#8 →
        hostDecode mode (.bytes src) s = .failed (.unsupportedFormat .nplanes h.nplanes)) ∧
      (h.bpp = 8#8 → h.nplanes = 1#8 → (gridWidth mode h ≤ 0 ∨ gridHeight h ≤ 0) →
        hostDecode mode (.bytes src) s = .refusedDimensions (gridWidth mode h) (gridHeight h)) ∧
      (h.bpp = 8#8 → h.nplanes = 1#8 → 0 < gridWidth mode h → 0 < gridHeight h →
        (∀ idx, decodeStream (compressedRegion src) = .ok idx →
          hostDecode mode (.bytes src) s = .image
            { header := h, region := compressedRegion src, palette := colors (paletteBytes src) }
            (gridRows (colors (paletteBytes src)) idx (gridWidth mode h).toNat (gridHeight h).toNat)) ∧
        (∀ out n, decodeStream (compressedRegion src) = .truncatedRun out n →
          hostDecode mode (.bytes src) s = .failed (.truncatedRun
            { markerPos := ((src.length - 897) % 2 ^ s.posW + 2 ^ s.posW - 1) % 2 ^ s.posW, count := n,
              inputLen := (src.length - 897) % 2 ^ s.posW, expectedLen := (src.length - 897) % 2 ^ s.posW + 1 }))))
end

