-- ==== Sys2Proof/Laws/State.lean ====
section
/-!
SUPPORT. One lemma per field per update of the state, so that no later proof unfolds a record update.
-/

namespace Sys2Proof.Machine

/-! ## Parameters -/

@[simp] theorem hdrLen_eq : Config.hdrLen = 128 := rfl
@[simp] theorem countMax_eq : Config.countMax = 63 := rfl
@[simp] theorem minSourceLen_eq : Config.minSourceLen = 897 := rfl
@[simp] theorem trailerLen_eq : Config.trailerLen = 769 := rfl
@[simp] theorem palBytes_eq : Config.palBytes = 768 := rfl

/-! ## Reset -/

@[simp] theorem resetAt_posW (w : Nat) : (State.resetAt w).posW = w := rfl
@[simp] theorem resetAt_hdr (w : Nat) : (State.resetAt w).hdr = Hdr.reset := rfl
@[simp] theorem resetAt_rle (w : Nat) : (State.resetAt w).rle = Rle.reset := rfl
@[simp] theorem resetAt_undrained (w : Nat) : (State.resetAt w).undrained = [] := rfl
@[simp] theorem resetAt_startWait (w : Nat) : (State.resetAt w).startWait = false := rfl
@[simp] theorem resetAt_rstSeen (w : Nat) : (State.resetAt w).rstSeen = true := rfl
@[simp] theorem resetAt_sink (w : Nat) : (State.resetAt w).sink = [] := rfl
@[simp] theorem resetAt_inbox (w : Nat) : (State.resetAt w).inbox = [] := rfl
@[simp] theorem resetAt_held (w : Nat) : (State.resetAt w).held = [] := rfl
@[simp] theorem resetAt_reads (w : Nat) : (State.resetAt w).reads = [] := rfl

/-! ## emit -/

@[simp] theorem emit_hdr (bs : List Byte) (s : State) : (emit bs s).hdr = s.hdr := rfl
@[simp] theorem emit_rle (bs : List Byte) (s : State) : (emit bs s).rle = s.rle := rfl
@[simp] theorem emit_undrained (bs : List Byte) (s : State) : (emit bs s).undrained = s.undrained ++ bs := rfl
@[simp] theorem emit_startWait (bs : List Byte) (s : State) : (emit bs s).startWait = s.startWait := rfl
@[simp] theorem emit_rstSeen (bs : List Byte) (s : State) : (emit bs s).rstSeen = s.rstSeen := rfl
@[simp] theorem emit_sink (bs : List Byte) (s : State) : (emit bs s).sink = s.sink := rfl
@[simp] theorem emit_inbox (bs : List Byte) (s : State) : (emit bs s).inbox = s.inbox := rfl
@[simp] theorem emit_held (bs : List Byte) (s : State) : (emit bs s).held = s.held := rfl
@[simp] theorem emit_reads (bs : List Byte) (s : State) : (emit bs s).reads = s.reads := rfl
@[simp] theorem emit_posW (bs : List Byte) (s : State) : (emit bs s).posW = s.posW := rfl

/-! ## advanceRlePos -/

@[simp] theorem advanceRlePos_hdr (s : State) : (advanceRlePos s).hdr = s.hdr := rfl
@[simp] theorem advanceRlePos_rle_phase (s : State) : (advanceRlePos s).rle.phase = s.rle.phase := rfl
@[simp] theorem advanceRlePos_rle_pend (s : State) : (advanceRlePos s).rle.pend = s.rle.pend := rfl
@[simp] theorem advanceRlePos_rle_cnt (s : State) : (advanceRlePos s).rle.cnt = s.rle.cnt := rfl
@[simp] theorem advanceRlePos_rle_pos (s : State) : (advanceRlePos s).rle.pos = wrapPos s.posW (s.rle.pos + 1) := rfl
@[simp] theorem advanceRlePos_rle_err (s : State) : (advanceRlePos s).rle.err = s.rle.err := rfl
@[simp] theorem advanceRlePos_undrained (s : State) : (advanceRlePos s).undrained = s.undrained := rfl
@[simp] theorem advanceRlePos_startWait (s : State) : (advanceRlePos s).startWait = s.startWait := rfl
@[simp] theorem advanceRlePos_rstSeen (s : State) : (advanceRlePos s).rstSeen = s.rstSeen := rfl
@[simp] theorem advanceRlePos_sink (s : State) : (advanceRlePos s).sink = s.sink := rfl
@[simp] theorem advanceRlePos_inbox (s : State) : (advanceRlePos s).inbox = s.inbox := rfl
@[simp] theorem advanceRlePos_held (s : State) : (advanceRlePos s).held = s.held := rfl
@[simp] theorem advanceRlePos_reads (s : State) : (advanceRlePos s).reads = s.reads := rfl
@[simp] theorem advanceRlePos_posW (s : State) : (advanceRlePos s).posW = s.posW := rfl

/-! ## setPending -/

@[simp] theorem setPending_hdr (p : Bool) (n : BitVec 6) (s : State) : (setPending p n s).hdr = s.hdr := rfl
@[simp] theorem setPending_rle_phase (p : Bool) (n : BitVec 6) (s : State) : (setPending p n s).rle.phase = s.rle.phase := rfl
@[simp] theorem setPending_rle_pend (p : Bool) (n : BitVec 6) (s : State) : (setPending p n s).rle.pend = p := rfl
@[simp] theorem setPending_rle_cnt (p : Bool) (n : BitVec 6) (s : State) : (setPending p n s).rle.cnt = n := rfl
@[simp] theorem setPending_rle_pos (p : Bool) (n : BitVec 6) (s : State) : (setPending p n s).rle.pos = s.rle.pos := rfl
@[simp] theorem setPending_rle_err (p : Bool) (n : BitVec 6) (s : State) : (setPending p n s).rle.err = s.rle.err := rfl
@[simp] theorem setPending_undrained (p : Bool) (n : BitVec 6) (s : State) : (setPending p n s).undrained = s.undrained := rfl
@[simp] theorem setPending_startWait (p : Bool) (n : BitVec 6) (s : State) : (setPending p n s).startWait = s.startWait := rfl
@[simp] theorem setPending_rstSeen (p : Bool) (n : BitVec 6) (s : State) : (setPending p n s).rstSeen = s.rstSeen := rfl
@[simp] theorem setPending_sink (p : Bool) (n : BitVec 6) (s : State) : (setPending p n s).sink = s.sink := rfl
@[simp] theorem setPending_inbox (p : Bool) (n : BitVec 6) (s : State) : (setPending p n s).inbox = s.inbox := rfl
@[simp] theorem setPending_held (p : Bool) (n : BitVec 6) (s : State) : (setPending p n s).held = s.held := rfl
@[simp] theorem setPending_reads (p : Bool) (n : BitVec 6) (s : State) : (setPending p n s).reads = s.reads := rfl
@[simp] theorem setPending_posW (p : Bool) (n : BitVec 6) (s : State) : (setPending p n s).posW = s.posW := rfl

/-! ## literalEffect -/

@[simp] theorem literalEffect_hdr (v : Byte) (s : State) : (literalEffect v s).hdr = s.hdr := rfl
@[simp] theorem literalEffect_rle_phase (v : Byte) (s : State) : (literalEffect v s).rle.phase = s.rle.phase := rfl
@[simp] theorem literalEffect_rle_pend (v : Byte) (s : State) : (literalEffect v s).rle.pend = s.rle.pend := rfl
@[simp] theorem literalEffect_rle_cnt (v : Byte) (s : State) : (literalEffect v s).rle.cnt = s.rle.cnt := rfl
@[simp] theorem literalEffect_rle_pos (v : Byte) (s : State) : (literalEffect v s).rle.pos = wrapPos s.posW (s.rle.pos + 1) := rfl
@[simp] theorem literalEffect_rle_err (v : Byte) (s : State) : (literalEffect v s).rle.err = s.rle.err := rfl
@[simp] theorem literalEffect_undrained (v : Byte) (s : State) : (literalEffect v s).undrained = s.undrained ++ [v] := rfl
@[simp] theorem literalEffect_startWait (v : Byte) (s : State) : (literalEffect v s).startWait = s.startWait := rfl
@[simp] theorem literalEffect_rstSeen (v : Byte) (s : State) : (literalEffect v s).rstSeen = s.rstSeen := rfl
@[simp] theorem literalEffect_sink (v : Byte) (s : State) : (literalEffect v s).sink = s.sink := rfl
@[simp] theorem literalEffect_inbox (v : Byte) (s : State) : (literalEffect v s).inbox = s.inbox := rfl
@[simp] theorem literalEffect_held (v : Byte) (s : State) : (literalEffect v s).held = s.held := rfl
@[simp] theorem literalEffect_reads (v : Byte) (s : State) : (literalEffect v s).reads = s.reads := rfl
@[simp] theorem literalEffect_posW (v : Byte) (s : State) : (literalEffect v s).posW = s.posW := rfl

/-! ## markerEffect -/

@[simp] theorem markerEffect_hdr (n : BitVec 6) (s : State) : (markerEffect n s).hdr = s.hdr := rfl
@[simp] theorem markerEffect_rle_phase (n : BitVec 6) (s : State) : (markerEffect n s).rle.phase = s.rle.phase := rfl
@[simp] theorem markerEffect_rle_pend (n : BitVec 6) (s : State) : (markerEffect n s).rle.pend = true := rfl
@[simp] theorem markerEffect_rle_cnt (n : BitVec 6) (s : State) : (markerEffect n s).rle.cnt = n := rfl
@[simp] theorem markerEffect_rle_pos (n : BitVec 6) (s : State) : (markerEffect n s).rle.pos = wrapPos s.posW (s.rle.pos + 1) := rfl
@[simp] theorem markerEffect_rle_err (n : BitVec 6) (s : State) : (markerEffect n s).rle.err = s.rle.err := rfl
@[simp] theorem markerEffect_undrained (n : BitVec 6) (s : State) : (markerEffect n s).undrained = s.undrained := rfl
@[simp] theorem markerEffect_startWait (n : BitVec 6) (s : State) : (markerEffect n s).startWait = s.startWait := rfl
@[simp] theorem markerEffect_rstSeen (n : BitVec 6) (s : State) : (markerEffect n s).rstSeen = s.rstSeen := rfl
@[simp] theorem markerEffect_sink (n : BitVec 6) (s : State) : (markerEffect n s).sink = s.sink := rfl
@[simp] theorem markerEffect_inbox (n : BitVec 6) (s : State) : (markerEffect n s).inbox = s.inbox := rfl
@[simp] theorem markerEffect_held (n : BitVec 6) (s : State) : (markerEffect n s).held = s.held := rfl
@[simp] theorem markerEffect_reads (n : BitVec 6) (s : State) : (markerEffect n s).reads = s.reads := rfl
@[simp] theorem markerEffect_posW (n : BitVec 6) (s : State) : (markerEffect n s).posW = s.posW := rfl

/-! ## dataEffect -/

@[simp] theorem dataEffect_hdr (d : Byte) (s : State) : (dataEffect d s).hdr = s.hdr := rfl
@[simp] theorem dataEffect_rle_phase (d : Byte) (s : State) : (dataEffect d s).rle.phase = s.rle.phase := rfl
@[simp] theorem dataEffect_rle_pend (d : Byte) (s : State) : (dataEffect d s).rle.pend = false := rfl
@[simp] theorem dataEffect_rle_cnt (d : Byte) (s : State) : (dataEffect d s).rle.cnt = 0#6 := rfl
@[simp] theorem dataEffect_rle_pos (d : Byte) (s : State) : (dataEffect d s).rle.pos = wrapPos s.posW (s.rle.pos + 1) := rfl
@[simp] theorem dataEffect_rle_err (d : Byte) (s : State) : (dataEffect d s).rle.err = s.rle.err := rfl
@[simp] theorem dataEffect_undrained (d : Byte) (s : State) : (dataEffect d s).undrained = s.undrained ++ List.replicate s.rle.cnt.toNat d := rfl
@[simp] theorem dataEffect_startWait (d : Byte) (s : State) : (dataEffect d s).startWait = s.startWait := rfl
@[simp] theorem dataEffect_rstSeen (d : Byte) (s : State) : (dataEffect d s).rstSeen = s.rstSeen := rfl
@[simp] theorem dataEffect_sink (d : Byte) (s : State) : (dataEffect d s).sink = s.sink := rfl
@[simp] theorem dataEffect_inbox (d : Byte) (s : State) : (dataEffect d s).inbox = s.inbox := rfl
@[simp] theorem dataEffect_held (d : Byte) (s : State) : (dataEffect d s).held = s.held := rfl
@[simp] theorem dataEffect_reads (d : Byte) (s : State) : (dataEffect d s).reads = s.reads := rfl
@[simp] theorem dataEffect_posW (d : Byte) (s : State) : (dataEffect d s).posW = s.posW := rfl

/-! ## endEffect -/

@[simp] theorem endEffect_hdr (s : State) : (endEffect s).hdr = s.hdr := rfl
@[simp] theorem endEffect_rle_phase (s : State) : (endEffect s).rle.phase = RlePhase.ended := rfl
@[simp] theorem endEffect_rle_pend (s : State) : (endEffect s).rle.pend = s.rle.pend := rfl
@[simp] theorem endEffect_rle_cnt (s : State) : (endEffect s).rle.cnt = s.rle.cnt := rfl
@[simp] theorem endEffect_rle_pos (s : State) : (endEffect s).rle.pos = s.rle.pos := rfl
@[simp] theorem endEffect_rle_err (s : State) : (endEffect s).rle.err = s.rle.err := rfl
@[simp] theorem endEffect_undrained (s : State) : (endEffect s).undrained = s.undrained := rfl
@[simp] theorem endEffect_startWait (s : State) : (endEffect s).startWait = s.startWait := rfl
@[simp] theorem endEffect_rstSeen (s : State) : (endEffect s).rstSeen = s.rstSeen := rfl
@[simp] theorem endEffect_sink (s : State) : (endEffect s).sink = s.sink := rfl
@[simp] theorem endEffect_inbox (s : State) : (endEffect s).inbox = s.inbox := rfl
@[simp] theorem endEffect_held (s : State) : (endEffect s).held = s.held := rfl
@[simp] theorem endEffect_reads (s : State) : (endEffect s).reads = s.reads := rfl
@[simp] theorem endEffect_posW (s : State) : (endEffect s).posW = s.posW := rfl

/-! ## raise, TRUNCATED_RUN -/

@[simp] theorem raise_run_hdr (s : State) : (raise .truncatedRun s).hdr = s.hdr := rfl
@[simp] theorem raise_run_rle_phase (s : State) : (raise .truncatedRun s).rle.phase = RlePhase.fault := rfl
@[simp] theorem raise_run_rle_pend (s : State) : (raise .truncatedRun s).rle.pend = s.rle.pend := rfl
@[simp] theorem raise_run_rle_cnt (s : State) : (raise .truncatedRun s).rle.cnt = s.rle.cnt := rfl
@[simp] theorem raise_run_rle_pos (s : State) : (raise .truncatedRun s).rle.pos = s.rle.pos := rfl
@[simp] theorem raise_run_rle_err (s : State) : (raise .truncatedRun s).rle.err = ErrCode.truncatedRun := rfl
@[simp] theorem raise_run_undrained (s : State) : (raise .truncatedRun s).undrained = s.undrained := rfl
@[simp] theorem raise_run_startWait (s : State) : (raise .truncatedRun s).startWait = s.startWait := rfl
@[simp] theorem raise_run_rstSeen (s : State) : (raise .truncatedRun s).rstSeen = s.rstSeen := rfl
@[simp] theorem raise_run_sink (s : State) : (raise .truncatedRun s).sink = s.sink := rfl
@[simp] theorem raise_run_inbox (s : State) : (raise .truncatedRun s).inbox = s.inbox := rfl
@[simp] theorem raise_run_held (s : State) : (raise .truncatedRun s).held = s.held := rfl
@[simp] theorem raise_run_reads (s : State) : (raise .truncatedRun s).reads = s.reads := rfl
@[simp] theorem raise_run_posW (s : State) : (raise .truncatedRun s).posW = s.posW := rfl

/-! ## raise, TRUNCATED_INPUT -/

@[simp] theorem raise_input_hdr (s : State) : (raise .truncatedInput s).hdr = { s.hdr with phase := .fault, err := .truncatedInput } := rfl
@[simp] theorem raise_input_rle (s : State) : (raise .truncatedInput s).rle = s.rle := rfl
@[simp] theorem raise_input_undrained (s : State) : (raise .truncatedInput s).undrained = s.undrained := rfl
@[simp] theorem raise_input_startWait (s : State) : (raise .truncatedInput s).startWait = s.startWait := rfl
@[simp] theorem raise_input_rstSeen (s : State) : (raise .truncatedInput s).rstSeen = s.rstSeen := rfl
@[simp] theorem raise_input_sink (s : State) : (raise .truncatedInput s).sink = s.sink := rfl
@[simp] theorem raise_input_inbox (s : State) : (raise .truncatedInput s).inbox = s.inbox := rfl
@[simp] theorem raise_input_held (s : State) : (raise .truncatedInput s).held = s.held := rfl
@[simp] theorem raise_input_reads (s : State) : (raise .truncatedInput s).reads = s.reads := rfl
@[simp] theorem raise_input_posW (s : State) : (raise .truncatedInput s).posW = s.posW := rfl

/-! ## logRead -/

@[simp] theorem logRead_hdr (v : ReadValue) (s : State) : (logRead v s).hdr = s.hdr := rfl
@[simp] theorem logRead_rle (v : ReadValue) (s : State) : (logRead v s).rle = s.rle := rfl
@[simp] theorem logRead_undrained (v : ReadValue) (s : State) : (logRead v s).undrained = s.undrained := rfl
@[simp] theorem logRead_startWait (v : ReadValue) (s : State) : (logRead v s).startWait = s.startWait := rfl
@[simp] theorem logRead_rstSeen (v : ReadValue) (s : State) : (logRead v s).rstSeen = s.rstSeen := rfl
@[simp] theorem logRead_sink (v : ReadValue) (s : State) : (logRead v s).sink = s.sink := rfl
@[simp] theorem logRead_inbox (v : ReadValue) (s : State) : (logRead v s).inbox = s.inbox := rfl
@[simp] theorem logRead_held (v : ReadValue) (s : State) : (logRead v s).held = s.held := rfl
@[simp] theorem logRead_reads (v : ReadValue) (s : State) : (logRead v s).reads = s.reads ++ [v] := rfl
@[simp] theorem logRead_posW (v : ReadValue) (s : State) : (logRead v s).posW = s.posW := rfl

/-! ## holdWord -/

@[simp] theorem holdWord_hdr (w : PortWord) (s : State) : (holdWord w s).hdr = s.hdr := rfl
@[simp] theorem holdWord_rle (w : PortWord) (s : State) : (holdWord w s).rle = s.rle := rfl
@[simp] theorem holdWord_undrained (w : PortWord) (s : State) : (holdWord w s).undrained = s.undrained := rfl
@[simp] theorem holdWord_startWait (w : PortWord) (s : State) : (holdWord w s).startWait = s.startWait := rfl
@[simp] theorem holdWord_rstSeen (w : PortWord) (s : State) : (holdWord w s).rstSeen = s.rstSeen := rfl
@[simp] theorem holdWord_sink (w : PortWord) (s : State) : (holdWord w s).sink = s.sink := rfl
@[simp] theorem holdWord_inbox (w : PortWord) (s : State) : (holdWord w s).inbox = s.inbox := rfl
@[simp] theorem holdWord_held (w : PortWord) (s : State) : (holdWord w s).held = s.held ++ [w] := rfl
@[simp] theorem holdWord_reads (w : PortWord) (s : State) : (holdWord w s).reads = s.reads := rfl
@[simp] theorem holdWord_posW (w : PortWord) (s : State) : (holdWord w s).posW = s.posW := rfl

/-! ## applyHdrStart -/

@[simp] theorem applyHdrStart_hdr (s : State) : (applyHdrStart s).hdr = Hdr.reset := rfl
@[simp] theorem applyHdrStart_rle (s : State) : (applyHdrStart s).rle = s.rle := rfl
@[simp] theorem applyHdrStart_undrained (s : State) : (applyHdrStart s).undrained = s.undrained := rfl
@[simp] theorem applyHdrStart_startWait (s : State) : (applyHdrStart s).startWait = s.startWait := rfl
@[simp] theorem applyHdrStart_rstSeen (s : State) : (applyHdrStart s).rstSeen = s.rstSeen := rfl
@[simp] theorem applyHdrStart_sink (s : State) : (applyHdrStart s).sink = s.sink := rfl
@[simp] theorem applyHdrStart_inbox (s : State) : (applyHdrStart s).inbox = s.inbox := rfl
@[simp] theorem applyHdrStart_held (s : State) : (applyHdrStart s).held = s.held := rfl
@[simp] theorem applyHdrStart_reads (s : State) : (applyHdrStart s).reads = s.reads := rfl
@[simp] theorem applyHdrStart_posW (s : State) : (applyHdrStart s).posW = s.posW := rfl

/-! ## applyRst -/

@[simp] theorem applyRst_hdr (s : State) : (applyRst s).hdr = Hdr.reset := rfl
@[simp] theorem applyRst_rle (s : State) : (applyRst s).rle = Rle.reset := rfl
@[simp] theorem applyRst_undrained (s : State) : (applyRst s).undrained = [] := rfl
@[simp] theorem applyRst_startWait (s : State) : (applyRst s).startWait = false := rfl
@[simp] theorem applyRst_rstSeen (s : State) : (applyRst s).rstSeen = true := rfl
@[simp] theorem applyRst_sink (s : State) : (applyRst s).sink = s.sink := rfl
@[simp] theorem applyRst_inbox (s : State) : (applyRst s).inbox = s.inbox := rfl
@[simp] theorem applyRst_held (s : State) : (applyRst s).held = s.held := rfl
@[simp] theorem applyRst_reads (s : State) : (applyRst s).reads = s.reads := rfl
@[simp] theorem applyRst_posW (s : State) : (applyRst s).posW = s.posW := rfl

/-! ## withFetchWord -/

@[simp] theorem withFetchWord_hdr (nbits w : Nat) (s : State) : (s.withFetchWord nbits w).hdr = s.hdr := rfl
@[simp] theorem withFetchWord_rle (nbits w : Nat) (s : State) : (s.withFetchWord nbits w).rle = s.rle := rfl
@[simp] theorem withFetchWord_undrained (nbits w : Nat) (s : State) : (s.withFetchWord nbits w).undrained = s.undrained := rfl
@[simp] theorem withFetchWord_startWait (nbits w : Nat) (s : State) : (s.withFetchWord nbits w).startWait = s.startWait := rfl
@[simp] theorem withFetchWord_rstSeen (nbits w : Nat) (s : State) : (s.withFetchWord nbits w).rstSeen = s.rstSeen := rfl
@[simp] theorem withFetchWord_sink (nbits w : Nat) (s : State) : (s.withFetchWord nbits w).sink = s.sink := rfl
@[simp] theorem withFetchWord_inbox (nbits w : Nat) (s : State) : (s.withFetchWord nbits w).inbox = tableSlot nbits w :: s.inbox := rfl
@[simp] theorem withFetchWord_held (nbits w : Nat) (s : State) : (s.withFetchWord nbits w).held = s.held := rfl
@[simp] theorem withFetchWord_reads (nbits w : Nat) (s : State) : (s.withFetchWord nbits w).reads = s.reads := rfl
@[simp] theorem withFetchWord_posW (nbits w : Nat) (s : State) : (s.withFetchWord nbits w).posW = s.posW := rfl

end Sys2Proof.Machine
end

