-- ==== Sys2Proof/Laws/Ops.lean ====
section
/-!
SUPPORT. One lemma per shared operation that says once what it can do, for later proofs to cite.
-/

namespace Sys2Proof.Machine

/-! ## Outcomes -/

@[simp] theorem andThen_next {α β : Type} (a : α) (f : α → Host.Outcome β Fault Refusal) :
    andThen (.next a) f = f a := rfl

@[simp] theorem andThen_fault {α β : Type} (r : Fault) (f : α → Host.Outcome β Fault Refusal) :
    andThen (.fault r) f = .fault r := rfl

@[simp] theorem andThen_refused {α β : Type} (r : Refusal) (f : α → Host.Outcome β Fault Refusal) :
    andThen (.refused r) f = .refused r := rfl

theorem andThen_eq_next {α β : Type} {o : Host.Outcome α Fault Refusal} {f : α → Host.Outcome β Fault Refusal}
    {b : β} : andThen o f = .next b ↔ ∃ a, o = .next a ∧ f a = .next b := by
  cases o <;> simp [andThen]

/-! ## The header offset space -/

@[simp] theorem get_nil (a : Nat) : Memory.get [] a = none := rfl

theorem get_cons (c : Nat) (v : Byte) (m : Memory) (a : Nat) :
    Memory.get ((c, v) :: m) a = if a = c then some v else Memory.get m a := rfl

theorem set_cons (c : Nat) (v : Byte) (m : Memory) (a : Nat) (b : Byte) :
    Memory.set ((c, v) :: m) a b =
      if a < c then (a, b) :: (c, v) :: m else if a = c then (a, b) :: m else (c, v) :: Memory.set m a b := rfl

@[simp] theorem get_set_same (m : Memory) (a : Nat) (b : Byte) : Memory.get (Memory.set m a b) a = some b := by
  induction m with
  | nil => simp [Memory.set, get_cons]
  | cons c m ih =>
    obtain ⟨c, v⟩ := c
    rw [set_cons]
    split
    · simp [get_cons]
    · split
      · simp [get_cons]
      · rw [get_cons, if_neg ‹_›, ih]

theorem get_set_other (m : Memory) {a c : Nat} (b : Byte) (h : a ≠ c) :
    Memory.get (Memory.set m c b) a = Memory.get m a := by
  induction m with
  | nil => simp [Memory.set, get_cons, h]
  | cons d m ih =>
    obtain ⟨d, v⟩ := d
    rw [set_cons]
    split
    · rw [get_cons, if_neg h]
    · split
      · subst_vars; rw [get_cons, get_cons, if_neg h, if_neg h]
      · rw [get_cons, get_cons, ih]

theorem mem_set {m : Memory} {a : Nat} {b : Byte} {c : Host.Cell} (h : c ∈ Memory.set m a b) :
    c = (a, b) ∨ c ∈ m := by
  induction m with
  | nil => simpa [Memory.set] using h
  | cons d m ih =>
    obtain ⟨d, v⟩ := d
    rw [set_cons] at h
    split at h
    · simpa using h
    · split at h
      · rcases List.mem_cons.1 h with h | h
        · exact .inl h
        · exact .inr (List.mem_cons_of_mem _ h)
      · rcases List.mem_cons.1 h with h | h
        · exact .inr (h ▸ List.mem_cons_self)
        · exact (ih h).imp id (List.mem_cons_of_mem _)

/-- A write inside the space keeps the canonical form. -/
theorem set_wf {m : Memory} {a : Nat} (b : Byte) (h : Memory.wf m) (ha : a < 128) :
    Memory.wf (Memory.set m a b) := by
  refine ⟨?_, fun c hc => ?_⟩
  · replace h := h.1
    induction m with
    | nil => simp [Memory.set]
    | cons d m ih =>
      obtain ⟨d, v⟩ := d
      obtain ⟨hd, hm⟩ := List.pairwise_cons.1 h
      rw [set_cons]
      split
      · rename_i hlt
        refine List.pairwise_cons.2 ⟨fun c hc => ?_, h⟩
        rcases List.mem_cons.1 hc with rfl | hc
        · exact hlt
        · exact Nat.lt_trans hlt (hd c hc)
      · split
        · rename_i heq
          exact List.pairwise_cons.2 ⟨fun c hc => by simpa [heq] using hd c hc, hm⟩
        · refine List.pairwise_cons.2 ⟨fun c hc => ?_, ih hm⟩
          rcases mem_set hc with rfl | hc
          · show d < a; omega
          · exact hd c hc
  · rcases mem_set hc with rfl | hc
    · exact ha
    · exact h.2 c hc

/-- Where the written offsets are 0..n-1, a write at n adds one cell at the end. -/
theorem set_at_end {m : Memory} {n : Nat} (b : Byte) (h : ∀ c ∈ m, c.1 < n) : Memory.set m n b = m ++ [(n, b)] := by
  induction m with
  | nil => rfl
  | cons d m ih =>
    obtain ⟨d, v⟩ := d
    have hd : d < n := h (d, v) List.mem_cons_self
    rw [set_cons, if_neg (by omega), if_neg (by omega), ih fun c hc => h c (List.mem_cons_of_mem _ hc)]
    rfl

theorem get_isSome_iff {m : Memory} {a : Nat} : (∃ v, Memory.get m a = some v) ↔ a ∈ m.map (fun c => c.1) := by
  induction m with
  | nil => simp
  | cons d m ih =>
    obtain ⟨d, v⟩ := d
    rw [get_cons, List.map_cons, List.mem_cons]
    split
    · simp_all
    · simp_all

/-- `MemRead(a, 1)` inside the space gives the byte there. -/
theorem memRead1_of_get {m : Memory} {a : Nat} {v : Byte} (ha : a < 128) (h : Memory.get m a = some v) :
    memRead1 m a = .next v := by
  unfold memRead1
  rw [if_pos (by rw [hdrLen_eq]; omega), h]

theorem memRead1_next {m : Memory} {a : Nat} {v : Byte} (h : memRead1 m a = .next v) :
    a < 128 ∧ Memory.get m a = some v := by
  unfold memRead1 at h
  split at h
  · split at h
    · simp_all
    · cases h
  · cases h

/-- `MemRead(a, 2)` inside the space packs the two bytes, the lower offset less significant. -/
theorem memRead2_of_get {m : Memory} {a : Nat} {lo hi : Byte} (ha : a + 1 < 128)
    (hlo : Memory.get m a = some lo) (hhi : Memory.get m (a + 1) = some hi) :
    memRead2 m a = .next (packHalf lo hi) := by
  unfold memRead2
  rw [if_pos (by rw [hdrLen_eq]; omega), memRead1_of_get (by omega) hlo]
  simp [memRead1_of_get ha hhi]

/-- A block inside the space gives the bytes at its offsets, in order. -/
theorem memReadBlock_of_get {m : Memory} {bs : List Byte} {a : Nat} (ha : a + bs.length ≤ 128)
    (h : ∀ k, k < bs.length → Memory.get m (a + k) = bs[k]?) : memReadBlock m a bs.length = .next bs := by
  induction bs generalizing a with
  | nil => rfl
  | cons b bs ih =>
    rw [List.length_cons] at ha
    have h0 : Memory.get m a = some b := by simpa using h 0 (by simp)
    have hrest : memReadBlock m (a + 1) bs.length = .next bs := by
      refine ih (by omega) fun k hk => ?_
      have := h (k + 1) (by simpa using hk)
      rwa [List.getElem?_cons_succ, show a + (k + 1) = a + 1 + k by omega] at this
    simp [memReadBlock, memRead1_of_get (show a < 128 by omega) h0, hrest]

/-- The value of a packed pair. -/
theorem packHalf_toNat (lo hi : Byte) : (packHalf lo hi).toNat = lo.toNat + 256 * hi.toNat := by
  have := lo.isLt
  rw [packHalf, BitVec.toNat_append, Nat.shiftLeft_eq, Nat.mul_comm, ← Nat.two_pow_add_eq_or_of_lt this]
  omega

/-! ## Acceptance -/

@[simp] theorem hdrInReady_iff (s : State) : hdrInReady s = true ↔ s.hdr.phase = .active := by simp [hdrInReady]

@[simp] theorem hdrValid_iff (s : State) : hdrValid s = true ↔ s.hdr.phase = .done := by simp [hdrValid]

@[simp] theorem rleInReady_iff (s : State) : rleInReady s = true ↔ s.rle.phase = .active ∧ s.undrained = [] := by
  simp [rleInReady]

/-- What an RLE operation can answer. -/
theorem whenRleAccepts_next {p : Bool} {e : State → State} {s t : State} :
    whenRleAccepts p e s = .next t ↔
      (rleInReady s = false ∧ t = s) ∨ (rleInReady s = true ∧ s.rle.pend = p ∧ t = e s) := by
  unfold whenRleAccepts
  cases rleInReady s <;> simp
  · exact eq_comm
  · by_cases hp : s.rle.pend = p <;> simp [hp, eq_comm]

theorem whenRleAccepts_ready {p : Bool} {e : State → State} {s : State}
    (h : s.rle.phase = .active) (hu : s.undrained = []) (hp : s.rle.pend = p) :
    whenRleAccepts p e s = .next (e s) :=
  whenRleAccepts_next.2 (.inr ⟨by simp [h, hu], hp, rfl⟩)

theorem whenRleAccepts_notReady {p : Bool} {e : State → State} {s : State} (h : rleInReady s = false) :
    whenRleAccepts p e s = .next s :=
  whenRleAccepts_next.2 (.inl ⟨h, rfl⟩)

/-- What an HDR operation can answer. -/
theorem whenHdrAccepts_next {e : State → Host.Outcome State Fault Refusal} {s t : State} :
    whenHdrAccepts e s = .next t ↔
      (s.hdr.phase ≠ .active ∧ t = s) ∨ (s.hdr.phase = .active ∧ e s = .next t) := by
  unfold whenHdrAccepts
  by_cases h : s.hdr.phase = .active
  · simp [h, hdrInReady]
  · rw [if_neg (by simpa using h)]
    simp only [h, not_false_eq_true, ne_eq, true_and, false_and, or_false]
    exact ⟨fun e => by cases e; rfl, fun e => by rw [e]⟩

/-- The capture, at a cursor inside the buffer (R101). -/
theorem captureEffect_inside {b : Byte} {s : State} (h : s.hdr.cur.toNat < 128) :
    captureEffect b s = .next { s with hdr := { s.hdr with
      buf := Memory.set s.hdr.buf s.hdr.cur.toNat b
      cur := s.hdr.cur + 1
      phase := if s.hdr.cur + 1 == 128#8 then .done else s.hdr.phase } } := by
  simp [captureEffect, memWrite, h]

theorem captureEffect_next {b : Byte} {s t : State} (h : captureEffect b s = .next t) :
    s.hdr.cur.toNat < 128 ∧ t = { s with hdr := { s.hdr with
      buf := Memory.set s.hdr.buf s.hdr.cur.toNat b
      cur := s.hdr.cur + 1
      phase := if s.hdr.cur + 1 == 128#8 then .done else s.hdr.phase } } := by
  by_cases hc : s.hdr.cur.toNat < 128
  · rw [captureEffect_inside hc] at h
    cases h
    exact ⟨hc, rfl⟩
  · simp [captureEffect, memWrite, hc] at h

/-! ## Field reads -/

theorem readU8_of_get {o : Nat} {v : Byte} {s : State} (hd : s.hdr.phase = .done) (ho : o < 128)
    (h : Memory.get s.hdr.buf o = some v) : readU8 o s = .next (logRead (.byte v) s) := by
  simp [readU8, whenHdrValid, hd, fieldU8, memRead1_of_get ho h]

theorem readU16_of_get {o : Nat} {lo hi : Byte} {s : State} (hd : s.hdr.phase = .done) (ho : o + 1 < 128)
    (hlo : Memory.get s.hdr.buf o = some lo) (hhi : Memory.get s.hdr.buf (o + 1) = some hi) :
    readU16 o s = .next (logRead (.half (packHalf lo hi)) s) := by
  simp [readU16, whenHdrValid, hd, fieldU16, memRead2_of_get ho hlo hhi]

theorem readBlock_of_get {o : Nat} {bs : List Byte} {s : State} (hd : s.hdr.phase = .done)
    (ho : o + bs.length ≤ 128) (h : ∀ k, k < bs.length → Memory.get s.hdr.buf (o + k) = bs[k]?) :
    readBlock o bs.length s = .next (logRead (.block bs) s) := by
  simp [readBlock, whenHdrValid, hd, fieldBlock, memReadBlock_of_get ho h]

theorem whenHdrValid_next {e : State → Host.Outcome State Fault Refusal} {s t : State} :
    whenHdrValid e s = .next t ↔ s.hdr.phase = .done ∧ e s = .next t := by
  unfold whenHdrValid
  by_cases h : s.hdr.phase = .done <;> simp [h, hdrValid]

/-! ## The output port -/

/-- What the sink's transfer can do: move bytes, and let a waiting start take effect. -/
theorem takeOutput_cases (k : Nat) (s : State) :
    ((s.startWait = false ∨ s.undrained.drop k ≠ []) ∧
      takeOutput k s = { s with sink := s.sink ++ s.undrained.take k, undrained := s.undrained.drop k }) ∨
    (s.startWait = true ∧ s.undrained.drop k = [] ∧
      takeOutput k s = { s with
        sink := s.sink ++ s.undrained.take k, undrained := [], rle := Rle.reset, startWait := false }) := by
  unfold takeOutput releaseStart
  by_cases hw : s.startWait = true <;> by_cases hd : s.undrained.drop k = [] <;> simp_all

/-- With nothing taken and no start that could be released, the sink's part of a step does nothing. -/
theorem takeOutput_none (s : State) (h : s.startWait = true → s.undrained ≠ []) : takeOutput 0 s = s := by
  simp only [takeOutput, List.take_zero, List.append_nil, List.drop_zero, releaseStart]
  rw [if_neg]
  simp only [Bool.and_eq_true, List.isEmpty_iff]
  exact fun hc => h hc.1 hc.2

theorem takeOutput_noWait (k : Nat) {s : State} (h : s.startWait = false) :
    takeOutput k s = { s with sink := s.sink ++ s.undrained.take k, undrained := s.undrained.drop k } := by
  rcases takeOutput_cases k s with ⟨-, e⟩ | ⟨hw, -, -⟩
  · exact e
  · simp [h] at hw

/-- `rle_pos` after an accepted byte is a number of POS_W bits. -/
theorem wrapPos_lt (w n : Nat) : wrapPos w n < 2 ^ w := Nat.mod_lt _ (Nat.two_pow_pos w)

/-- Counting on from a wrapped offset. -/
theorem wrapPos_add (w m n : Nat) : wrapPos w (wrapPos w m + n) = wrapPos w (m + n) := Nat.mod_add_mod m (2 ^ w) n

@[simp] theorem takeOutput_posW (k : Nat) (s : State) : (takeOutput k s).posW = s.posW := by
  rcases takeOutput_cases k s with ⟨-, e⟩ | ⟨-, -, e⟩ <;> rw [e]

@[simp] theorem takeOutput_hdr (k : Nat) (s : State) : (takeOutput k s).hdr = s.hdr := by
  rcases takeOutput_cases k s with ⟨-, e⟩ | ⟨-, -, e⟩ <;> rw [e]

@[simp] theorem takeOutput_rstSeen (k : Nat) (s : State) : (takeOutput k s).rstSeen = s.rstSeen := by
  rcases takeOutput_cases k s with ⟨-, e⟩ | ⟨-, -, e⟩ <;> rw [e]

@[simp] theorem takeOutput_inbox (k : Nat) (s : State) : (takeOutput k s).inbox = s.inbox := by
  rcases takeOutput_cases k s with ⟨-, e⟩ | ⟨-, -, e⟩ <;> rw [e]

@[simp] theorem takeOutput_held (k : Nat) (s : State) : (takeOutput k s).held = s.held := by
  rcases takeOutput_cases k s with ⟨-, e⟩ | ⟨-, -, e⟩ <;> rw [e]

@[simp] theorem takeOutput_reads (k : Nat) (s : State) : (takeOutput k s).reads = s.reads := by
  rcases takeOutput_cases k s with ⟨-, e⟩ | ⟨-, -, e⟩ <;> rw [e]

@[simp] theorem takeOutput_undrained (k : Nat) (s : State) : (takeOutput k s).undrained = s.undrained.drop k := by
  rcases takeOutput_cases k s with ⟨-, e⟩ | ⟨-, hd, e⟩ <;> rw [e]
  exact hd.symm

@[simp] theorem takeOutput_sink (k : Nat) (s : State) : (takeOutput k s).sink = s.sink ++ s.undrained.take k := by
  rcases takeOutput_cases k s with ⟨-, e⟩ | ⟨-, -, e⟩ <;> rw [e]

/-! ## Controls -/

/-- A start of RLE, at once or later (R243). -/
theorem applyRleStart_cases (s : State) :
    (s.undrained = [] ∧ applyRleStart s = { s with rle := Rle.reset, startWait := false }) ∨
    (s.undrained ≠ [] ∧ applyRleStart s = { s with startWait := true }) := by
  unfold applyRleStart
  by_cases h : s.undrained = [] <;> simp [h]

/-! ## The step -/

theorem stepSlot_next {sl : Slot} {s t : State} :
    stepSlot sl s = .next t ↔
      (s.rstSeen = true ∨ sl.rst = true) ∧
        ∃ u, runRequest sl (applyControls sl s) = .next u ∧ t = takeOutput sl.take u := by
  unfold stepSlot
  by_cases h : s.rstSeen = true ∨ sl.rst = true
  · rw [if_pos (by simpa using h), andThen_eq_next]
    refine ⟨fun ⟨u, hu, e⟩ => ⟨h, u, hu, ?_⟩, fun ⟨_, u, hu, e⟩ => ⟨u, hu, by rw [e]⟩⟩
    cases e; rfl
  · rw [if_neg (by simpa using h)]
    simp only [h, false_and, iff_false]
    exact fun e => by cases e

/-- What a request can do: nothing, a word accepted and run, a word left with the host, or a read. -/
theorem runRequest_next {sl : Slot} {s t : State} (h : runRequest sl s = .next t) :
    t = s ∨
    (∃ w i, sl.req = .offer w ∧ blockedByControl sl w = false ∧ portReady w s = true ∧
      decode s.rle.pend w = .ok i ∧ exec i s = .next t) ∨
    (∃ w, sl.req = .offer w ∧ (blockedByControl sl w = true ∨ portReady w s = false) ∧ t = holdWord w s) ∨
    (∃ v, t = logRead v s) := by
  unfold runRequest at h
  split at h
  · cases h; exact .inl rfl
  · rename_i w hw
    split at h
    · rename_i hb
      unfold runWord at h
      split at h
      · rename_i i hi
        simp only [Bool.and_eq_true, Bool.not_eq_true'] at hb
        exact .inr (.inl ⟨w, i, hw, hb.1, hb.2, hi, h⟩)
      · cases h
    · rename_i hb
      cases h
      refine .inr (.inr (.inl ⟨w, hw, ?_, rfl⟩))
      cases h1 : blockedByControl sl w <;> simp_all
  · unfold readStatus at h
    split at h
    · cases h; exact .inr (.inr (.inr ⟨_, rfl⟩))
    · cases h
  · cases h; exact .inr (.inr (.inr ⟨_, rfl⟩))

end Sys2Proof.Machine
end

