-- ==== Sys2Proof/Laws/Exec.lean ====
section
/-!
SUPPORT. What an operation of each port can do, said once: the inversion lemmas of `exec`, with the frames of the
captured byte.
-/

namespace Sys2Proof.Machine

/-- Every RLE operation is one acceptance with an effect, for the value of `rle_pend` its row names. -/
theorem exec_rle_form {i : Instr} (hp : i.port = .rle) :
    ∃ p e, i.pendClass = some p ∧ ∀ s, exec i s = whenRleAccepts p e s := by
  cases i with
  | litLow v => exact ⟨false, literalEffect v, rfl, fun _ => rfl⟩
  | litHigh v => exact ⟨false, literalEffect v, rfl, fun _ => rfl⟩
  | run n d => exact ⟨false, fun s => dataEffect d (markerEffect n s), rfl, fun _ => rfl⟩
  | runMark n => exact ⟨false, markerEffect n, rfl, fun _ => rfl⟩
  | runData d => exact ⟨true, dataEffect d, rfl, fun _ => rfl⟩
  | endIdle => exact ⟨false, endEffect, rfl, fun _ => rfl⟩
  | endPend => exact ⟨true, raise .truncatedRun, rfl, fun _ => rfl⟩
  | _ => cases hp

/-- Every HDR operation is one acceptance with an effect. -/
theorem exec_hdr_form {i : Instr} (hp : i.port = .hdr) : ∃ e, ∀ s, exec i s = whenHdrAccepts e s := by
  cases i with
  | hdrCapture b => exact ⟨captureEffect b, fun _ => rfl⟩
  | hdrEnd => exact ⟨fun s => .next (raise .truncatedInput s), fun _ => rfl⟩
  | _ => cases hp

/-- An RLE operation changes nothing, or it is accepted in ACTIVE with nothing undrained and has its row's effect. -/
theorem exec_rle_next {i : Instr} {s t : State} (hp : i.port = .rle) (h : exec i s = .next t) :
    (rleInReady s = false ∧ t = s) ∨
    (s.rle.phase = .active ∧ s.undrained = [] ∧
      ((s.rle.pend = false ∧ ∃ v, t = literalEffect v s) ∨
       (s.rle.pend = false ∧ ∃ n d, t = dataEffect d (markerEffect n s)) ∨
       (s.rle.pend = false ∧ ∃ n, t = markerEffect n s) ∨
       (s.rle.pend = true ∧ ∃ d, t = dataEffect d s) ∨
       (s.rle.pend = false ∧ i = .endIdle ∧ t = endEffect s) ∨
       (s.rle.pend = true ∧ i = .endPend ∧ t = raise .truncatedRun s))) := by
  have key : ∀ {p : Bool} {e : State → State}, whenRleAccepts p e s = .next t →
      (rleInReady s = false ∧ t = s) ∨ (s.rle.phase = .active ∧ s.undrained = [] ∧ s.rle.pend = p ∧ t = e s) := by
    intro p e he
    rcases whenRleAccepts_next.1 he with h | ⟨hr, hpd, ht⟩
    · exact .inl h
    · have := (rleInReady_iff s).1 hr
      exact .inr ⟨this.1, this.2, hpd, ht⟩
  cases i with
  | litLow v =>
    exact (key (e := literalEffect v) h).imp id fun ⟨a, b, c, d⟩ => ⟨a, b, .inl ⟨c, v, d⟩⟩
  | litHigh v =>
    exact (key (e := literalEffect v) h).imp id fun ⟨a, b, c, d⟩ => ⟨a, b, .inl ⟨c, v, d⟩⟩
  | run n x =>
    exact (key (e := fun s => dataEffect x (markerEffect n s)) h).imp id
      fun ⟨a, b, c, d⟩ => ⟨a, b, .inr (.inl ⟨c, n, x, d⟩)⟩
  | runMark n =>
    exact (key (e := markerEffect n) h).imp id fun ⟨a, b, c, d⟩ => ⟨a, b, .inr (.inr (.inl ⟨c, n, d⟩))⟩
  | runData x =>
    exact (key (e := dataEffect x) h).imp id fun ⟨a, b, c, d⟩ => ⟨a, b, .inr (.inr (.inr (.inl ⟨c, x, d⟩)))⟩
  | endIdle =>
    exact (key (e := endEffect) h).imp id
      fun ⟨a, b, c, d⟩ => ⟨a, b, .inr (.inr (.inr (.inr (.inl ⟨c, rfl, d⟩))))⟩
  | endPend =>
    exact (key (e := raise .truncatedRun) h).imp id
      fun ⟨a, b, c, d⟩ => ⟨a, b, .inr (.inr (.inr (.inr (.inr ⟨c, rfl, d⟩))))⟩
  | _ => cases hp

/-- HDR after a capture (R101). -/
def capturedHdr (b : Byte) (h : Hdr) : Hdr :=
  { h with
    buf := Memory.set h.buf h.cur.toNat b
    cur := h.cur + 1
    phase := if h.cur + 1 == 128#8 then .done else h.phase }

/-- An HDR operation changes nothing, or it is accepted in ACTIVE and captures a byte or raises TRUNCATED_INPUT. -/
theorem exec_hdr_next {i : Instr} {s t : State} (hp : i.port = .hdr) (h : exec i s = .next t) :
    (s.hdr.phase ≠ .active ∧ t = s) ∨
    (s.hdr.phase = .active ∧
      ((∃ b, i = .hdrCapture b ∧ s.hdr.cur.toNat < 128 ∧ t = { s with hdr := capturedHdr b s.hdr }) ∨
       (i = .hdrEnd ∧ t = raise .truncatedInput s))) := by
  cases i with
  | hdrCapture b =>
    rcases whenHdrAccepts_next.1 h with h | ⟨ha, h⟩
    · exact .inl h
    · exact .inr ⟨ha, .inl ⟨b, rfl, captureEffect_next h⟩⟩
  | hdrEnd =>
    rcases (whenHdrAccepts_next (e := fun s => .next (raise .truncatedInput s))).1 h with h | ⟨ha, h⟩
    · exact .inl h
    · cases h
      exact .inr ⟨ha, .inr ⟨rfl, rfl⟩⟩
  | _ => cases hp

/-- A `u8` field read that completes logs one value in DONE. -/
theorem readU8_next {o : Nat} {s t : State} (h : readU8 o s = .next t) :
    s.hdr.phase = .done ∧ ∃ v, t = logRead v s := by
  obtain ⟨hd, h⟩ := whenHdrValid_next.1 h
  obtain ⟨v, -, h⟩ := andThen_eq_next.1 h
  cases h
  exact ⟨hd, _, rfl⟩

/-- A `u16le` field read that completes logs one value in DONE. -/
theorem readU16_next {o : Nat} {s t : State} (h : readU16 o s = .next t) :
    s.hdr.phase = .done ∧ ∃ v, t = logRead v s := by
  obtain ⟨hd, h⟩ := whenHdrValid_next.1 h
  obtain ⟨v, -, h⟩ := andThen_eq_next.1 h
  cases h
  exact ⟨hd, _, rfl⟩

/-- A block read that completes logs one value in DONE. -/
theorem readBlock_next {o k : Nat} {s t : State} (h : readBlock o k s = .next t) :
    s.hdr.phase = .done ∧ ∃ v, t = logRead v s := by
  obtain ⟨hd, h⟩ := whenHdrValid_next.1 h
  obtain ⟨v, -, h⟩ := andThen_eq_next.1 h
  cases h
  exact ⟨hd, _, rfl⟩

/-- Every field read is one of the three forms, inside the header offset space. -/
theorem exec_field_form {i : Instr} (hp : i.port = .field) :
    (∃ o, o < 128 ∧ ∀ s, exec i s = readU8 o s) ∨ (∃ o, o + 1 < 128 ∧ ∀ s, exec i s = readU16 o s) ∨
    (∃ o k, o + k ≤ 128 ∧ ∀ s, exec i s = readBlock o k s) := by
  cases i with
  | hdrMarker => exact .inl ⟨0, by omega, fun _ => rfl⟩
  | hdrVersion => exact .inl ⟨1, by omega, fun _ => rfl⟩
  | hdrEncoding => exact .inl ⟨2, by omega, fun _ => rfl⟩
  | hdrBpp => exact .inl ⟨3, by omega, fun _ => rfl⟩
  | hdrReserved => exact .inl ⟨64, by omega, fun _ => rfl⟩
  | hdrNplanes => exact .inl ⟨65, by omega, fun _ => rfl⟩
  | hdrXmin => exact .inr (.inl ⟨4, by omega, fun _ => rfl⟩)
  | hdrYmin => exact .inr (.inl ⟨6, by omega, fun _ => rfl⟩)
  | hdrXmax => exact .inr (.inl ⟨8, by omega, fun _ => rfl⟩)
  | hdrYmax => exact .inr (.inl ⟨10, by omega, fun _ => rfl⟩)
  | hdrVdpi => exact .inr (.inl ⟨12, by omega, fun _ => rfl⟩)
  | hdrHdpi => exact .inr (.inl ⟨14, by omega, fun _ => rfl⟩)
  | hdrBpl => exact .inr (.inl ⟨66, by omega, fun _ => rfl⟩)
  | hdrPalinfo => exact .inr (.inl ⟨68, by omega, fun _ => rfl⟩)
  | hdrHscreen => exact .inr (.inl ⟨70, by omega, fun _ => rfl⟩)
  | hdrVscreen => exact .inr (.inl ⟨72, by omega, fun _ => rfl⟩)
  | hdrPal16 => exact .inr (.inr ⟨16, 48, by omega, fun _ => rfl⟩)
  | hdrPad => exact .inr (.inr ⟨74, 54, by omega, fun _ => rfl⟩)
  | _ => cases hp

/-- A field read that completes logs one value in DONE and changes nothing else (R26, R58). -/
theorem exec_field_next {i : Instr} {s t : State} (hp : i.port = .field) (h : exec i s = .next t) :
    s.hdr.phase = .done ∧ ∃ v, t = logRead v s := by
  rcases exec_field_form hp with ⟨o, -, e⟩ | ⟨o, -, e⟩ | ⟨o, k, -, e⟩ <;> rw [e] at h
  · exact readU8_next h
  · exact readU16_next h
  · exact readBlock_next h

/-- Every operation is fetched from one of the three ports. -/
theorem port_cases (i : Instr) : i.port = .rle ∨ i.port = .hdr ∨ i.port = .field := by
  cases i.port <;> simp

end Sys2Proof.Machine
end

