-- ==== Sys2Proof/Laws/Step.lean ====
section
/-!
SUPPORT. What the step can do, said once: its inversion, what the controls leave alone, and the readiness of a port.
-/

namespace Sys2Proof.Machine

@[simp] theorem portReady_rle {w : PortWord} {s : State} (h : w.port = .rle) : portReady w s = rleInReady s := by
  simp [portReady, h]

@[simp] theorem portReady_hdr {w : PortWord} {s : State} (h : w.port = .hdr) : portReady w s = hdrInReady s := by
  simp [portReady, h]

theorem rleInReady_of_phase {s : State} (h : s.rle.phase ≠ .active) : rleInReady s = false :=
  Bool.eq_false_iff.2 fun h' => h ((rleInReady_iff s).1 h').1

theorem rleInReady_of_undrained {s : State} (h : s.undrained ≠ []) : rleInReady s = false :=
  Bool.eq_false_iff.2 fun h' => h ((rleInReady_iff s).1 h').2

theorem hdrInReady_of_phase {s : State} (h : s.hdr.phase ≠ .active) : hdrInReady s = false :=
  Bool.eq_false_iff.2 fun h' => h ((hdrInReady_iff s).1 h')

/-- A word decodes to an operation of its own port. -/
theorem decode_port {p : Bool} {w : PortWord} {i : Instr} (h : decode p w = .ok i) : i.port = w.port := by
  match w with
  | .rleSym (.byte b) =>
    cases h
    unfold decodeRleByte
    split
    · rfl
    · split
      · rfl
      · split <;> rfl
  | .rleSym .endOfInput => cases p <;> cases h <;> rfl
  | .rleItem m d =>
    replace h : decodeRleItem p m d = .ok i := h
    unfold decodeRleItem at h
    split at h
    · cases h
    · split at h <;> cases h
      rfl
  | .hdrSym (.byte b) => cases h; rfl
  | .hdrSym .endOfInput => cases h; rfl
  | .fieldRead o =>
    replace h : decodeField o = .ok i := h
    unfold decodeField at h
    split at h
    · rename_i row hrow
      cases h
      have hmem := List.mem_of_find?_eq_some hrow
      have : ∀ row ∈ fieldRows, row.2.port = .field := by decide
      exact this row hmem
    · cases h

/-! ## Controls -/

/-- With no `rst` and no `rle_start`, the controls leave RLE and the output port alone. -/
theorem applyControls_rle {sl : Slot} {s : State} (h1 : sl.rst = false) (h2 : sl.rleStart = false) :
    (applyControls sl s).rle = s.rle ∧ (applyControls sl s).undrained = s.undrained ∧
      (applyControls sl s).startWait = s.startWait := by
  simp [applyControls, h1, h2]
  split <;> simp

/-- With no `rst` and no `hdr_start`, the controls leave HDR alone. -/
theorem applyControls_hdr {sl : Slot} {s : State} (h1 : sl.rst = false) (h2 : sl.hdrStart = false) :
    (applyControls sl s).hdr = s.hdr := by
  simp [applyControls, h1, h2]
  split
  · rcases applyRleStart_cases s with ⟨-, e⟩ | ⟨-, e⟩ <;> rw [e]
  · rfl

/-- The controls never touch the sink, the inbox, the host's symbols or its reads. -/
theorem applyControls_host (sl : Slot) (s : State) :
    (applyControls sl s).sink = s.sink ∧ (applyControls sl s).inbox = s.inbox ∧
      (applyControls sl s).held = s.held ∧ (applyControls sl s).reads = s.reads := by
  unfold applyControls
  split
  · exact ⟨rfl, rfl, rfl, rfl⟩
  · have h : ∀ u : State, (applyRleStart u).sink = u.sink ∧ (applyRleStart u).inbox = u.inbox ∧
        (applyRleStart u).held = u.held ∧ (applyRleStart u).reads = u.reads := by
      intro u
      rcases applyRleStart_cases u with ⟨-, e⟩ | ⟨-, e⟩ <;> rw [e] <;> exact ⟨rfl, rfl, rfl, rfl⟩
    split <;> split <;> first | exact h _ | exact ⟨rfl, rfl, rfl, rfl⟩

/-- With no control asserted nothing changes before the request. -/
theorem applyControls_none {sl : Slot} (s : State) (h1 : sl.rst = false) (h2 : sl.hdrStart = false)
    (h3 : sl.rleStart = false) : applyControls sl s = s := by
  simp [applyControls, h1, h2, h3]

/-! ## The step -/

theorem step_of_slot {s : State} {sl : Slot} {rest : List Slot} (h : s.inbox = sl :: rest) :
    step s = stepSlot sl { s with inbox := rest } := by
  simp [step, h]

/-- What a step can do: nothing where nothing is offered, else one slot. -/
theorem step_next {s t : State} (h : step s = .next t) :
    (s.inbox = [] ∧ s.rstSeen = true ∧ t = s) ∨
    ∃ sl rest, s.inbox = sl :: rest ∧ (s.rstSeen = true ∨ sl.rst = true) ∧
      ∃ u, runRequest sl (applyControls sl { s with inbox := rest }) = .next u ∧ t = takeOutput sl.take u := by
  unfold step at h
  split at h
  · unfold stepIdle at h
    split at h
    · cases h; exact .inl ⟨by assumption, by assumption, rfl⟩
    · cases h
  · rename_i sl rest hi
    exact .inr ⟨sl, rest, hi, stepSlot_next.1 h⟩

end Sys2Proof.Machine
end

