-- ==== Sys2Proof/Laws/Container.lean ====
section
/-!
SUPPORT. What the host's start slots do, said once: the output still on the port reaches the sink and the started units
are in their reset state.
-/

namespace Sys2Proof.Machine

/-- Taking all that is undrained, with a start waiting for it, applies the start. -/
theorem takeOutput_all (s : State) (hw : s.startWait = true) : takeOutput s.undrained.length s =
    { s with sink := s.sink ++ s.undrained, undrained := [], rle := Rle.reset, startWait := false } := by
  simp [takeOutput, releaseStart, hw]

/-- `rle_start` and then taking all that is undrained, in one slot. -/
theorem takeOutput_applyRleStart (s : State) : takeOutput s.undrained.length (applyRleStart s) =
    { s with sink := s.sink ++ s.undrained, undrained := [], rle := Rle.reset, startWait := false } := by
  rcases applyRleStart_cases s with ⟨hu, e⟩ | ⟨-, e⟩ <;> rw [e]
  · rw [takeOutput_noWait _ rfl]
    simp [hu]
  · exact takeOutput_all { s with startWait := true } rfl

/-- The slot before a region (R184). -/
theorem stepSlot_regionStartSlot {s : State} (hr : s.rstSeen = true) : stepSlot (regionStartSlot s) s =
    .next { s with sink := s.sink ++ s.undrained, undrained := [], rle := Rle.reset, startWait := false } := by
  rw [stepSlot, if_pos (by simp [hr])]
  exact congrArg Host.Outcome.next (takeOutput_applyRleStart s)

/-- The slot before a decode (R196). -/
theorem stepSlot_restartSlot {s : State} (hr : s.rstSeen = true) : stepSlot (restartSlot s) s =
    .next { s with
      sink := s.sink ++ s.undrained, undrained := [], hdr := Hdr.reset, rle := Rle.reset, startWait := false } := by
  rw [stepSlot, if_pos (by simp [hr])]
  exact congrArg Host.Outcome.next (takeOutput_applyRleStart (applyHdrStart s))

end Sys2Proof.Machine
end

