-- ==== Sys2Proof/Laws/Flags.lean ====
section
/-!
SUPPORT. Reading a field out of a concatenation: the two lemmas that take STATUS apart.
-/

namespace Sys2Proof.Machine

/-- The low part of a concatenation. -/
theorem extract_append_low {m w : Nat} (x : BitVec m) (y : BitVec w) : (x ++ y).extractLsb' 0 w = y := by
  apply BitVec.eq_of_getLsbD_eq
  intro i hi
  simp [BitVec.getLsbD_append, hi]

/-- A field inside the high part of a concatenation. -/
theorem extract_append_high {m w : Nat} (x : BitVec m) (y : BitVec w) (k n : Nat) :
    (x ++ y).extractLsb' (k + w) n = x.extractLsb' k n := by
  apply BitVec.eq_of_getLsbD_eq
  intro i hi
  have h : ¬ k + w + i < w := by omega
  simp [BitVec.getLsbD_append, h, show k + w + i - w = k + i by omega]

end Sys2Proof.Machine
end

