-- ==== Sys2Proof/Laws/PerInstr.lean ====
section
/-!
SUPPORT. A statement about every operation as syntax, one lemma per constructor: its word stands on its own port.
-/

namespace Sys2Proof.Laws

/-- The word an operation is encoded as stands on the port the operation is fetched from. -/
def PortOfWord.Statement (i : Instr) : Prop := (encode i).port = i.port

theorem PortOfWord.litLow (v : Byte) : PortOfWord.Statement (.litLow v) := rfl
theorem PortOfWord.litHigh (v : Byte) : PortOfWord.Statement (.litHigh v) := rfl
theorem PortOfWord.run (n : BitVec 6) (d : Byte) : PortOfWord.Statement (.run n d) := rfl
theorem PortOfWord.runMark (n : BitVec 6) : PortOfWord.Statement (.runMark n) := rfl
theorem PortOfWord.runData (d : Byte) : PortOfWord.Statement (.runData d) := rfl
theorem PortOfWord.endIdle : PortOfWord.Statement .endIdle := rfl
theorem PortOfWord.endPend : PortOfWord.Statement .endPend := rfl
theorem PortOfWord.hdrCapture (b : Byte) : PortOfWord.Statement (.hdrCapture b) := rfl
theorem PortOfWord.hdrEnd : PortOfWord.Statement .hdrEnd := rfl
theorem PortOfWord.hdrMarker : PortOfWord.Statement .hdrMarker := rfl
theorem PortOfWord.hdrVersion : PortOfWord.Statement .hdrVersion := rfl
theorem PortOfWord.hdrEncoding : PortOfWord.Statement .hdrEncoding := rfl
theorem PortOfWord.hdrBpp : PortOfWord.Statement .hdrBpp := rfl
theorem PortOfWord.hdrXmin : PortOfWord.Statement .hdrXmin := rfl
theorem PortOfWord.hdrYmin : PortOfWord.Statement .hdrYmin := rfl
theorem PortOfWord.hdrXmax : PortOfWord.Statement .hdrXmax := rfl
theorem PortOfWord.hdrYmax : PortOfWord.Statement .hdrYmax := rfl
theorem PortOfWord.hdrVdpi : PortOfWord.Statement .hdrVdpi := rfl
theorem PortOfWord.hdrHdpi : PortOfWord.Statement .hdrHdpi := rfl
theorem PortOfWord.hdrPal16 : PortOfWord.Statement .hdrPal16 := rfl
theorem PortOfWord.hdrReserved : PortOfWord.Statement .hdrReserved := rfl
theorem PortOfWord.hdrNplanes : PortOfWord.Statement .hdrNplanes := rfl
theorem PortOfWord.hdrBpl : PortOfWord.Statement .hdrBpl := rfl
theorem PortOfWord.hdrPalinfo : PortOfWord.Statement .hdrPalinfo := rfl
theorem PortOfWord.hdrHscreen : PortOfWord.Statement .hdrHscreen := rfl
theorem PortOfWord.hdrVscreen : PortOfWord.Statement .hdrVscreen := rfl
theorem PortOfWord.hdrPad : PortOfWord.Statement .hdrPad := rfl

end Sys2Proof.Laws
end

