-- ==== Sys2Proof/Tests/Slice0.lean ====
section
/-!
SUPPORT. The model's own tests. Words are written out from the encodings of spec/30_encoding.md, expected values are
taken from spec/95_test_vectors.md or by hand from the rule named; then one witness for the hypotheses of each statement.
-/

namespace Sys2Proof.Tests

open Sys2Proof Sys2Proof.Machine

/-! ## Small states -/

/-- RLE with a run of count `n` pending after one byte. -/
def pending (n : BitVec 6) : State :=
  { State.reset with rle := { Rle.reset with pend := true, cnt := n, pos := 1 } }

/-- HDR in ACTIVE with `n` bytes 0 captured. -/
def captured (n : Nat) : State :=
  { State.reset with
    hdr := { Hdr.reset with cur := BitVec.ofNat 8 n, buf := (List.range n).map fun k => (k, 0#8) } }

/-- Vector F-A of 95_test_vectors.md: HDR in DONE with every byte its own offset. -/
def vectorFA : State :=
  { State.reset with
    hdr := { Hdr.reset with
      phase := .done, cur := 128#8, buf := (List.range 128).map fun k => (k, BitVec.ofNat 8 k) } }

/-- RLE stopped in a phase. -/
def stopped (p : RlePhase) : State := { State.reset with rle := { Rle.reset with phase := p } }

/-- One byte still on the output port. -/
def draining : State := { State.reset with undrained := [0x41#8] }

/-- The state with one slot offered. -/
def offered (s : State) (sl : Slot) : State := { s with inbox := [sl] }

/-- The next state of an outcome. -/
def nextOf (o : Host.Outcome State Fault Refusal) : Option State :=
  match o with
  | .next t => some t
  | .fault _ => none
  | .refused _ => none

/-- The value an operation reads. -/
def readOf (o : Host.Outcome State Fault Refusal) : Option ReadValue :=
  (nextOf o).bind fun t => t.reads.head?

/-- The operation a word decodes to. -/
def decoded (p : Bool) (w : PortWord) : Option Instr :=
  match decode p w with
  | .ok i => some i
  | .error _ => none

/-! ## WellFormed: an ill-formed term for each check -/

/-- R72: bit 7 set is no word of the first LIT row. -/
theorem test_wellFormed_litLow_refuses : (Instr.litLow 0x80#8).wellFormed = false := by decide
/-- R72: `0b01xxxxxx` is no word of the second LIT row. -/
theorem test_wellFormed_litHigh_refuses_low : (Instr.litHigh 0x7F#8).wellFormed = false := by decide
/-- R80: a value of 0xC0 or more is no literal. -/
theorem test_wellFormed_litHigh_refuses_marker : (Instr.litHigh 0xC0#8).wellFormed = false := by decide
theorem test_wellFormed_accepts : (Instr.litLow 0x7F#8).wellFormed = true ∧ (Instr.litHigh 0xBF#8).wellFormed = true := by
  decide

/-! ## Decoding of words written out from R72, R73, R83 -/

theorem test_decode_litLow : decoded false (.rleSym (.byte 0b01000001#8)) = some (.litLow 0x41#8) := by decide
theorem test_decode_litHigh : decoded false (.rleSym (.byte 0b10000000#8)) = some (.litHigh 0x80#8) := by decide
theorem test_decode_run : decoded false (.rleItem 0b11000011#8 0b01000001#8) = some (.run 3#6 0x41#8) := by decide
theorem test_decode_runMark_zero : decoded false (.rleSym (.byte 0b11000000#8)) = some (.runMark 0#6) := by decide
theorem test_decode_runMark_max : decoded false (.rleSym (.byte 0b11111111#8)) = some (.runMark 63#6) := by decide
theorem test_decode_runData : decoded true (.rleSym (.byte 0b11000101#8)) = some (.runData 0xC5#8) := by decide
theorem test_decode_endIdle : decoded false (.rleSym .endOfInput) = some .endIdle := by decide
theorem test_decode_endPend : decoded true (.rleSym .endOfInput) = some .endPend := by decide
theorem test_decode_hdrCapture : decoded true (.hdrSym (.byte 0b00001010#8)) = some (.hdrCapture 0x0A#8) := by decide
theorem test_decode_hdrEnd : decoded false (.hdrSym .endOfInput) = some .hdrEnd := by decide
theorem test_decode_u8_fields :
    ([0b0000000#7, 0b0000001#7, 0b0000010#7, 0b0000011#7, 0b1000000#7, 0b1000001#7].map
      fun o => decoded false (.fieldRead o)) =
    [some .hdrMarker, some .hdrVersion, some .hdrEncoding, some .hdrBpp, some .hdrReserved, some .hdrNplanes] := by
  decide
theorem test_decode_window_and_dpi_fields :
    ([0b0000100#7, 0b0000110#7, 0b0001000#7, 0b0001010#7, 0b0001100#7, 0b0001110#7].map
      fun o => decoded false (.fieldRead o)) =
    [some .hdrXmin, some .hdrYmin, some .hdrXmax, some .hdrYmax, some .hdrVdpi, some .hdrHdpi] := by decide
theorem test_decode_other_fields :
    ([0b0010000#7, 0b1000010#7, 0b1000100#7, 0b1000110#7, 0b1001000#7, 0b1001010#7].map
      fun o => decoded false (.fieldRead o)) =
    [some .hdrPal16, some .hdrBpl, some .hdrPalinfo, some .hdrHscreen, some .hdrVscreen, some .hdrPad] := by decide
/-- Offset 5 lies inside `xmin`; no field starts there. -/
theorem test_decode_rejects_inner_offset : decoded false (.fieldRead 5#7) = none := by decide
theorem test_decode_rejects_item_of_literal : decoded false (.rleItem 0xBF#8 0x41#8) = none := by decide
theorem test_decode_rejects_item_while_pending : decoded true (.rleItem 0xC3#8 0x41#8) = none := by decide
/-- R84: the layout is contiguous from 0 to 128. -/
theorem test_layout_contiguous : contiguous 0 128 headerLayout = true := by decide
/-- R77: a RUN cut short. -/
theorem test_decodeItem_truncated : decodeItem [0xC3#8] = .truncatedRun 3#6 := by decide
theorem test_itemBytes_run : itemBytes (.run 3#6 0x41#8) = [0xC3#8, 0x41#8] := by decide

/-- R70: with `*_in_end` = 1 the byte lines are ignored; with `*_in_valid` = 0 nothing is offered. -/
theorem test_port_lines :
    hdrRequest ⟨true, true, 0x41#8⟩ = .offer (.hdrSym .endOfInput) ∧
    rleRequest ⟨true, false, 0x41#8⟩ = .offer (.rleSym (.byte 0x41#8)) ∧ rleRequest ⟨false, true, 0x41#8⟩ = .idle := by
  decide

/-! ## Table words -/

theorem test_table_words :
    [decodeTableWord 8 0x80, decodeTableWord 16 0xC000, decodeTableWord 8 0xC0, decodeTableWord 8 0x00,
      decodeTableWord 8 0x4A] =
    [some (.litHigh 0x80#8), some (.run 0#6 0#8), some (.runMark 0#6), some .hdrMarker, some .hdrPad] := by decide
theorem test_step_runs_table_word :
    (nextOf (step (State.reset.withFetchWord 16 0xC341))).map (fun t => (t.sink, t.rle.pos)) =
      some ([0x41#8, 0x41#8, 0x41#8], 2) := by decide

/-! ## RLE operations (95_test_vectors.md 2.3) -/

/-- R-2. -/
theorem test_litLow_emits : (nextOf (exec (.litLow 0x41#8) State.reset)).map (fun t => (t.undrained, t.rle.pos)) =
    some ([0x41#8], 1) := by decide
/-- R-27: the position wraps. -/
theorem test_litLow_position_wraps :
    (nextOf (exec (.litLow 0x41#8) { State.reset with rle := { Rle.reset with pos := 0xFFFFFFFF } })).map
      (fun t => t.rle.pos) = some 0 := by decide
/-- R7: with POS_W = 4 the position wraps after 16 bytes. -/
theorem test_litLow_position_wraps_at_posW :
    (nextOf (exec (.litLow 0x41#8) { State.resetAt 4 with rle := { Rle.reset with pos := 15 } })).map
      (fun t => (t.posW, t.rle.pos)) = some (4, 0) := by decide
/-- R-4. -/
theorem test_litHigh_emits : (nextOf (exec (.litHigh 0xBF#8) State.reset)).map (fun t => t.undrained) = some [0xBF#8] := by
  decide
/-- R-6. -/
theorem test_run_emits_copies : (nextOf (exec (.run 3#6 0x41#8) State.reset)).map (fun t => (t.undrained, t.rle.pos)) =
    some ([0x41#8, 0x41#8, 0x41#8], 2) := by decide
/-- R-7. -/
theorem test_run_count_zero : (nextOf (exec (.run 0#6 0x41#8) State.reset)).map (fun t => t.undrained) = some [] := by
  decide
/-- R-22. -/
theorem test_runMark_status : (nextOf (exec (.runMark 3#6) State.reset)).map statusWord = some 0x00000070#32 := by decide
/-- R-23. -/
theorem test_runData_emits : (nextOf (exec (.runData 0x41#8) (pending 3#6))).map
    (fun t => (t.undrained, t.rle.pend, t.rle.cnt, t.rle.pos, statusWord t)) =
    some ([0x41#8, 0x41#8, 0x41#8], false, 0#6, 2, 0#32) := by decide
/-- R-11: marker-valued data. -/
theorem test_runData_marker_valued : (nextOf (exec (.runData 0xC5#8) (pending 2#6))).map (fun t => t.undrained) =
    some [0xC5#8, 0xC5#8] := by decide
/-- R-1. -/
theorem test_endIdle_status : (nextOf (exec .endIdle State.reset)).map statusWord = some 0x00000004#32 := by decide
/-- R-18. -/
theorem test_endPend_status : (nextOf (exec .endPend (pending 3#6))).map statusWord = some 0x00008078#32 := by decide
/-- R-19: a dangling marker of count 0 still faults; marker_pos 0, input length 1. -/
theorem test_endPend_context : (nextOf (exec .endPend (pending 0#6))).bind rleFaultContext =
    some { markerPos := 0, count := 0#6, inputLen := 1, expectedLen := 2 } := by decide
/-- R212 at POS_W = 4: a marker at offset 15, after which `rle_pos` is 0. -/
theorem test_endPend_context_wraps :
    (nextOf (exec .endPend { State.resetAt 4 with rle := { Rle.reset with pend := true, cnt := 1#6 } })).bind
      rleFaultContext = some { markerPos := 15, count := 1#6, inputLen := 0, expectedLen := 1 } := by decide
/-- R38: RLE_POS is POS_W bits wide. -/
theorem test_rlePos_read : readOf (readStatus 1 { State.resetAt 4 with rle := { Rle.reset with pos := 15 } }) =
    some (.rlePos 4 15#4) := by decide
/-- R-26: the pending run is dropped with no fault. -/
theorem test_rleStart_drops_run : nextOf (step (offered (pending 3#6) { rleStart := true })) = some State.reset := by
  decide
/-- R-24: a symbol offered in ENDED is not accepted. -/
theorem test_ended_holds_symbol :
    (nextOf (step (offered (stopped .ended) (rleSlot (.byte 0x41#8))))).map (fun t => (t.rle, t.sink, t.held)) =
      some ((stopped .ended).rle, [], [.rleSym (.byte 0x41#8)]) := by decide

/-- R228. -/
theorem test_outcomes :
    rleOutcome [] (stopped .ended) = .success ∧ rleOutcome [] (stopped .fault) = .fault ∧
    rleOutcome [.endOfInput] (stopped .fault) = .stuck ∧ hdrOutcome [.byte 0x99#8] vectorFA = .stuck ∧
    rleOutcome [] State.reset = .stuck ∧ hdrOutcome [.endOfInput] State.reset = .notOver ∧
    hostHangs (.rleSym .endOfInput) (stopped .ended) = true := by decide

/-! ## HDR steps (95_test_vectors.md 2.1) -/

/-- H1. -/
theorem test_capture_first : (nextOf (exec (.hdrCapture 0x0A#8) State.reset)).map
    (fun t => (t.hdr.buf, statusWord t)) = some ([(0, 0x0A#8)], 0x00020000#32) := by decide
/-- H3, the 128th byte. -/
theorem test_capture_last : (nextOf (exec (.hdrCapture 0xFF#8) (captured 127))).map statusWord = some 0x01000001#32 := by
  decide
/-- H6. -/
theorem test_hdrEnd_empty : (nextOf (exec .hdrEnd State.reset)).map statusWord = some 0x00000802#32 := by decide
/-- H7. -/
theorem test_hdrEnd_hundred : (nextOf (exec .hdrEnd (captured 100))).map (fun t => (statusWord t, hdrFaultContext t)) =
    some (0x00C80802#32, some { expected := 128, actual := 100 }) := by decide
/-- H4: the byte after the 128th stays with the host. -/
theorem test_done_holds_byte : (nextOf (step (offered vectorFA (hdrSlot (.byte 0x99#8))))).map
    (fun t => (t.hdr.cur, t.held)) = some (128#8, [.hdrSym (.byte 0x99#8)]) := by decide

/-! ## HDR fields (95_test_vectors.md 2.2, vector F-A) -/

theorem test_field_marker : readOf (exec .hdrMarker vectorFA) = some (.byte 0x00#8) := by decide
theorem test_field_version : readOf (exec .hdrVersion vectorFA) = some (.byte 0x01#8) := by decide
theorem test_field_encoding : readOf (exec .hdrEncoding vectorFA) = some (.byte 0x02#8) := by decide
theorem test_field_bpp : readOf (exec .hdrBpp vectorFA) = some (.byte 0x03#8) := by decide
theorem test_field_xmin : readOf (exec .hdrXmin vectorFA) = some (.half 0x0504#16) := by decide
theorem test_field_ymin : readOf (exec .hdrYmin vectorFA) = some (.half 0x0706#16) := by decide
theorem test_field_xmax : readOf (exec .hdrXmax vectorFA) = some (.half 0x0908#16) := by decide
theorem test_field_ymax : readOf (exec .hdrYmax vectorFA) = some (.half 0x0B0A#16) := by decide
theorem test_field_vdpi : readOf (exec .hdrVdpi vectorFA) = some (.half 0x0D0C#16) := by decide
theorem test_field_hdpi : readOf (exec .hdrHdpi vectorFA) = some (.half 0x0F0E#16) := by decide
theorem test_field_pal16 : readOf (exec .hdrPal16 vectorFA) =
    some (.block ((List.range' 16 48).map (BitVec.ofNat 8))) := by decide
theorem test_field_reserved : readOf (exec .hdrReserved vectorFA) = some (.byte 0x40#8) := by decide
theorem test_field_nplanes : readOf (exec .hdrNplanes vectorFA) = some (.byte 0x41#8) := by decide
theorem test_field_bpl : readOf (exec .hdrBpl vectorFA) = some (.half 0x4342#16) := by decide
theorem test_field_palinfo : readOf (exec .hdrPalinfo vectorFA) = some (.half 0x4544#16) := by decide
theorem test_field_hscreen : readOf (exec .hdrHscreen vectorFA) = some (.half 0x4746#16) := by decide
theorem test_field_vscreen : readOf (exec .hdrVscreen vectorFA) = some (.half 0x4948#16) := by decide
set_option maxRecDepth 20000 in
theorem test_field_pad : readOf (exec .hdrPad vectorFA) =
    some (.block ((List.range' 74 54).map (BitVec.ofNat 8))) := by decide

/-! ## Streams and notation (95_test_vectors.md 2.3, part 3) -/

/-- R-15: the second marker-like byte is data. -/
theorem test_stream_marker_valued_data : decodeStream [0xC1#8, 0xC2#8, 0x05#8] = .ok [0xC2#8, 0x05#8] := by decide
/-- R-21. -/
theorem test_stream_truncated :
    decodeStream [0xC2#8, 0x41#8, 0xC3#8] = .truncatedRun [0x41#8, 0x41#8] 3#6 := by decide
/-- P2's encoding, `END` included. -/
theorem test_assemble_P2 :
    (match assemble [.skip 0x41, .byte 0xC5, .run 2 0xC0, .lit 0xBF, .endMark] with
      | .ok xs => some xs
      | .error _ => none) =
    some [.byte 0xC0#8, .byte 0x41#8, .byte 0xC1#8, .byte 0xC5#8, .byte 0xC2#8, .byte 0xC0#8, .byte 0xBF#8,
      .endOfInput] := by decide
/-- P3's fill of 70. -/
theorem test_fill_seventy : (match asmFill 70 0 with | .ok bs => some bs | .error _ => none) =
    some [0xFF#8, 0x00#8, 0xC7#8, 0x00#8] := by decide
/-- R80: `lit` with V ≥ 0xC0 and `run` with N > 63 are rejected. -/
theorem test_notation_rejects :
    (match asmLit 0xC0 with | .ok _ => false | .error e => e == .literalTooLarge 0xC0) = true ∧
    (match asmRun 64 0 with | .ok _ => false | .error e => e == .countTooLarge 64) = true := by decide

/-! ## The host's contract (95_test_vectors.md 2.4) -/

/-- A header of a 2 × 1 image of 8 bits and 1 plane (S10). -/
def headerS10 : Header :=
  { marker := 0x0A#8, version := 5#8, encoding := 1#8, bpp := 8#8, xmin := 0#16, ymin := 0#16, xmax := 1#16,
    ymax := 0#16, vdpi := 0#16, hdpi := 0#16, pal16 := List.replicate 48 0#8, reserved := 0#8, nplanes := 1#8,
    bpl := 2#16, palinfo := 0#16, hscreen := 0#16, vscreen := 0#16, pad := List.replicate 54 0#8 }

set_option maxRecDepth 20000 in
/-- X4: the region of a 1000-byte source is 103 bytes long. -/
theorem test_region_length : (compressedRegion (List.replicate 1000 0#8)).length = 103 := by decide
/-- X7: four columns, two rows, three indices. -/
theorem test_grid_underrun :
    gridRows [defaultColor, ⟨1, 1, 1, 255⟩, ⟨2, 2, 2, 255⟩, ⟨3, 3, 3, 255⟩] [1#8, 2#8, 3#8] 4 2 =
      [[⟨1, 1, 1, 255⟩, ⟨2, 2, 2, 255⟩, ⟨3, 3, 3, 255⟩, ⟨0, 0, 0, 0⟩],
       [⟨0, 0, 0, 0⟩, ⟨0, 0, 0, 0⟩, ⟨0, 0, 0, 0⟩, ⟨0, 0, 0, 0⟩]] := by decide
/-- X6: `bpp` is checked first. -/
theorem test_format_bpp_first :
    formatCheck { headerS10 with bpp := 4#8, nplanes := 3#8 } = some (.unsupportedFormat .bpp 4#8) := by decide
/-- X5. -/
theorem test_format_nplanes :
    formatCheck { headerS10 with nplanes := 3#8 } = some (.unsupportedFormat .nplanes 3#8) := by decide
/-- X9: width 0. -/
theorem test_dimensions_zero : gridWidth .documented { headerS10 with xmin := 5#16, xmax := 4#16 } = 0 := by decide
/-- X10. -/
theorem test_dimensions_legacy :
    gridWidth .legacy { headerS10 with ymax := 3#16 } = 4 ∧ gridWidth .documented { headerS10 with ymax := 3#16 } = 2 := by
  decide

/-! ## Witnesses: the hypotheses of each statement can be met -/

theorem witness_DecodeOfEncode :
    ((Instr.litLow 0x7F#8).wellFormed = true ∧ (Instr.litLow 0x7F#8).fits false = true) ∧
    ((Instr.litHigh 0x80#8).wellFormed = true ∧ (Instr.litHigh 0x80#8).fits false = true) ∧
    ((Instr.runData 0xFF#8).wellFormed = true ∧ (Instr.runData 0xFF#8).fits true = true) ∧
    (Instr.hdrPad.wellFormed = true ∧ Instr.hdrPad.fits true = true) := by decide

theorem witness_EncodeOfDecode : decode false (.rleItem 0xFF#8 0#8) = .ok (.run 63#6 0#8) := by rfl

theorem witness_RleSymbolClasses :
    (0x7F#8).toNat < 0x80 ∧ (0x80 ≤ (0x80#8).toNat ∧ (0x80#8).toNat < 0xC0) ∧
      (0x80 ≤ (0xBF#8).toNat ∧ (0xBF#8).toNat < 0xC0) ∧ 0xC0 ≤ (0xC0#8).toNat ∧ 0xC0 ≤ (0xFF#8).toNat := by decide

theorem witness_FirstByteTellsItemLength : 0xC0 ≤ (0xC0#8).toNat ∧ (0xBF#8).toNat < 0xC0 := by decide

theorem witness_idle :
    State.reset.rle.phase = .active ∧ State.reset.undrained = [] ∧ State.reset.rle.pend = false ∧
      (0#8).toNat < 0xC0 ∧ (0xBF#8).toNat < 0xC0 ∧ 0xC0 ≤ (0xC0#8).toNat ∧ 0xC0 ≤ (0xFF#8).toNat := by decide

theorem witness_pending :
    (pending 63#6).rle.phase = .active ∧ (pending 63#6).undrained = [] ∧ (pending 63#6).rle.pend = true := by decide

theorem witness_StoppedRleIsLeftOnlyByStartOrRst :
    ((stopped .ended).rle.phase ≠ .active ∧ (stopped .fault).rle.phase ≠ .active ∧ Instr.endPend.port = .rle) ∧
    ∃ t, step (offered (stopped .fault) { rleStart := true }) = .next t ∧
      t.rle ≠ (offered (stopped .fault) { rleStart := true }).rle := by
  exact ⟨by decide, _, rfl, by decide⟩

theorem witness_DrainingRleAcceptsNothing : draining.undrained ≠ [] ∧ (Instr.litLow 0#8).port = .rle := by decide

theorem witness_WrongClassIsRefused :
    (pending 1#6).rle.phase = .active ∧ (pending 1#6).undrained = [] ∧ (Instr.litLow 0#8).port = .rle ∧
      (Instr.litLow 0#8).fits (pending 1#6).rle.pend = false := by decide

theorem witness_MarkerValuedDataByteIsEmitted :
    (offered (pending 2#6) (rleSlot (.byte 0xC5#8))).rstSeen = true ∧
    (offered (pending 2#6) (rleSlot (.byte 0xC5#8))).rle.phase = .active ∧
    (offered (pending 2#6) (rleSlot (.byte 0xC5#8))).undrained = [] ∧
    (offered (pending 2#6) (rleSlot (.byte 0xC5#8))).startWait = false ∧
    (offered (pending 2#6) (rleSlot (.byte 0xC5#8))).rle.pend = true ∧ 0xC0 ≤ (0xC5#8).toNat ∧
    (offered (pending 2#6) (rleSlot (.byte 0xC5#8))).inbox = rleSlot (.byte 0xC5#8) :: [] := by decide

theorem witness_CaptureStoresAtCursor :
    (State.reset.hdr.phase = .active ∧ State.reset.hdr.cur.toNat < 128) ∧
    ((captured 127).hdr.phase = .active ∧ (captured 127).hdr.cur.toNat < 128) := by decide

theorem witness_CaptureKeepsMemoryForm :
    Memory.wf (captured 3).hdr.buf ∧ ∃ t, exec (.hdrCapture 1#8) (captured 3) = .next t := by
  exact ⟨by decide, _, rfl⟩

theorem witness_CaptureBeyondBufferIsRefused :
    (captured 128).hdr.phase = .active ∧ 128 ≤ (captured 128).hdr.cur.toNat := by decide

theorem witness_HdrEndRaisesTruncatedInput : State.reset.hdr.phase = .active ∧ (captured 127).hdr.phase = .active := by
  decide

theorem witness_StoppedHdrIsLeftOnlyByStartOrRst :
    (vectorFA.hdr.phase ≠ .active ∧ Instr.hdrEnd.port = .hdr) ∧
    ∃ t, step (offered vectorFA { hdrStart := true }) = .next t ∧
      t.hdr ≠ (offered vectorFA { hdrStart := true }).hdr := by
  exact ⟨by decide, _, rfl, by decide⟩

theorem witness_ByteFieldReads :
    vectorFA.hdr.phase = .done ∧ Memory.get vectorFA.hdr.buf 0 = some 0#8 ∧ Memory.get vectorFA.hdr.buf 1 = some 1#8 ∧
    Memory.get vectorFA.hdr.buf 2 = some 2#8 ∧ Memory.get vectorFA.hdr.buf 3 = some 3#8 ∧
    Memory.get vectorFA.hdr.buf 64 = some 64#8 ∧ Memory.get vectorFA.hdr.buf 65 = some 65#8 := by decide

theorem witness_HalfFieldReads :
    vectorFA.hdr.phase = .done ∧ Memory.get vectorFA.hdr.buf 4 = some 4#8 ∧ Memory.get vectorFA.hdr.buf 5 = some 5#8 ∧
    Memory.get vectorFA.hdr.buf 72 = some 72#8 ∧ Memory.get vectorFA.hdr.buf 73 = some 73#8 := by decide

set_option maxRecDepth 20000 in
theorem witness_BlockFieldReads :
    vectorFA.hdr.phase = .done ∧ ((List.range' 16 48).map (BitVec.ofNat 8)).length = 48 ∧
    (∀ k, k < 48 → Memory.get vectorFA.hdr.buf (16 + k) = ((List.range' 16 48).map (BitVec.ofNat 8))[k]?) ∧
    ((List.range' 74 54).map (BitVec.ofNat 8)).length = 54 ∧
    (∀ k, k < 54 → Memory.get vectorFA.hdr.buf (74 + k) = ((List.range' 74 54).map (BitVec.ofNat 8))[k]?) := by decide

theorem witness_EveryFieldReadCompletesInDone :
    vectorFA.hdr.Inv ∧ vectorFA.hdr.phase = .done ∧ Instr.hdrPad.port = .field := by decide

theorem witness_FieldReadBeforeDoneFaults : State.reset.hdr.phase ≠ .done ∧ Instr.hdrMarker.port = .field := by decide

theorem witness_FieldReadStopsOnlyOnMissingByte :
    vectorFA.hdr.phase = .done ∧ Instr.hdrBpl.port = .field ∧
    ∃ s : State, s.hdr.phase = .done ∧ exec .hdrMarker s = .fault (.unwrittenHeaderByte 0) :=
  ⟨by decide, by decide, { State.reset with hdr := { Hdr.reset with phase := .done } }, by decide, rfl⟩

set_option maxRecDepth 20000 in
theorem witness_WholeHeaderObservation :
    State.reset.rstSeen = true ∧ State.reset.hdr = Hdr.reset ∧ (State.reset.startWait = true → State.reset.undrained ≠ []) ∧
    (List.replicate 128 (0#8)).length = 128 ∧ (List.replicate 127 (0#8)).length < 128 := by decide

theorem witness_MachineRefinesStreamDecode :
    State.reset.rstSeen = true ∧ State.reset.rle = Rle.reset ∧ State.reset.undrained = [] ∧
    State.reset.startWait = false ∧ decodeStream [0xC1#8, 0x41#8, 0x42#8] = .ok [0x41#8, 0x42#8] ∧
    decodeStream [0xC0#8] = .truncatedRun [] 0#6 := by decide

theorem witness_LiteralsDecodeToThemselves : ∀ b ∈ [0x01#8, 0x7F#8, 0xBF#8], b.toNat < 0xC0 := by decide

theorem witness_OutputLengthAndBounds :
    decodeStream [0xFF#8, 0x00#8] = .ok (List.replicate 63 0#8) ∧ decodeStream [] = .ok [] := by decide

theorem witness_FillExpandsToCopies : (0 : Nat) < 256 ∧ (255 : Nat) < 256 := by decide

theorem witness_StepRunsDecodedOperation :
    (offered State.reset (rleSlot (.byte 0x41#8))).inbox = rleSlot (.byte 0x41#8) :: [] ∧
    (rleSlot (.byte 0x41#8)).req = .offer (.rleSym (.byte 0x41#8)) ∧
    (offered State.reset (rleSlot (.byte 0x41#8))).rstSeen = true ∧
    blockedByControl (rleSlot (.byte 0x41#8)) (.rleSym (.byte 0x41#8)) = false ∧
    portReady (.rleSym (.byte 0x41#8)) (applyControls (rleSlot (.byte 0x41#8)) State.reset) = true ∧
    decoded (applyControls (rleSlot (.byte 0x41#8)) State.reset).rle.pend (.rleSym (.byte 0x41#8)) =
      some (.litLow 0x41#8) := by decide

theorem witness_FetchWordIsRunNext :
    State.reset.rstSeen = true ∧ State.reset.rle.pend = false ∧ portReady (tableWord 8 0x80) State.reset = true ∧
    decodeTableWord 8 0x80 = some (.litHigh 0x80#8) := by decide

theorem witness_StepKeepsInvariant :
    (offered State.reset (rleSlot (.byte 0xC3#8))).Inv ∧
      ∃ t, step (offered State.reset (rleSlot (.byte 0xC3#8))) = .next t := by
  exact ⟨by decide, _, rfl⟩

theorem witness_RstEstablishesInvariant :
    ∃ t, (offered { draining with rstSeen := false } { rst := true }).inbox.head? = some { rst := true } ∧
      step (offered { draining with rstSeen := false } { rst := true }) = .next t := by
  exact ⟨_, rfl, rfl⟩

theorem witness_RstResetsBothUnits :
    (offered draining { rst := true }).inbox = { rst := true } :: [] ∧
    ({ rst := true } : Slot).req = .idle ∧
    ({ rst := true, req := .offer (.hdrSym .endOfInput) } : Slot).req = .offer (.hdrSym .endOfInput) ∧
    (PortWord.hdrSym .endOfInput).port ≠ .field ∧
    ∃ t, step (offered draining { rst := true, req := .readReg 0 }) = .next t := by
  exact ⟨rfl, rfl, rfl, by decide, _, rfl⟩

theorem witness_HdrStartRestartsHdrAlone :
    vectorFA.rstSeen = true ∧ (vectorFA.startWait = true → vectorFA.undrained ≠ []) ∧
    (offered vectorFA { hdrStart := true }).inbox = { hdrStart := true } :: [] ∧
    (offered vectorFA { hdrStart := true, req := .offer (.hdrSym .endOfInput) }).inbox =
      { hdrStart := true, req := .offer (.hdrSym .endOfInput) } :: [] := by decide

theorem witness_RleStartRestartsRleAlone :
    (pending 1#6).rstSeen = true ∧ (pending 1#6).undrained = [] ∧
    (offered (pending 1#6) { rleStart := true }).inbox = { rleStart := true } :: [] ∧
    (offered (pending 1#6) { rleStart := true, req := .offer (.rleSym .endOfInput) }).inbox =
      { rleStart := true, req := .offer (.rleSym .endOfInput) } :: [] := by decide

theorem witness_RleStartWaitsForTheDrain :
    draining.rstSeen = true ∧ draining.undrained ≠ [] ∧
    (offered draining { rleStart := true, take := 0 }).inbox = { rleStart := true, take := 0 } :: [] ∧
    (offered { draining with startWait := true } { take := 1 }).inbox = { take := 1 } :: [] ∧
    0 < draining.undrained.length ∧ draining.undrained.length ≤ 1 := by decide

theorem witness_NoStepBeforeFirstRst :
    ({ State.reset with rstSeen := false } : State).rstSeen = false ∧
    (∀ sl, (offered { State.reset with rstSeen := false } (rleSlot .endOfInput)).inbox.head? = some sl → sl.rst = false) := by
  refine ⟨rfl, fun sl h => ?_⟩
  cases h
  rfl

theorem witness_NothingOfferedKeepsState : State.reset.rstSeen = true ∧ State.reset.inbox = [] := by decide

theorem witness_UnacceptedSymbolStaysWithHost :
    vectorFA.rstSeen = true ∧ (vectorFA.startWait = true → vectorFA.undrained ≠ []) ∧ (PortWord.hdrSym (.byte 0x41#8)).port ≠ .field ∧
    portReady (.hdrSym (.byte 0x41#8)) vectorFA = false ∧
    ({ draining with startWait := true }.startWait = true → { draining with startWait := true }.undrained ≠ []) ∧
    portReady (.rleSym (.byte 0x41#8)) { draining with startWait := true } = false ∧
    (offered vectorFA { req := .offer (.hdrSym (.byte 0x41#8)) }).inbox =
      { req := .offer (.hdrSym (.byte 0x41#8)) } :: [] := by decide

theorem witness_SinkTakesOldestBytesInOrder :
    draining.rstSeen = true ∧ draining.startWait = false ∧ (offered draining { take := 1 }).inbox = { take := 1 } :: [] := by
  decide

theorem witness_OutputStreamOnlyGrows :
    (∃ t, (offered State.reset (rleSlot (.byte 0x41#8))).inbox.head? = some (rleSlot (.byte 0x41#8)) ∧
      step (offered State.reset (rleSlot (.byte 0x41#8))) = .next t ∧ (rleSlot (.byte 0x41#8)).rst = false) ∧
    (∃ t, (offered draining { rst := true }).inbox.head? = some { rst := true } ∧
      step (offered draining { rst := true }) = .next t) := by
  exact ⟨⟨_, rfl, rfl, rfl⟩, ⟨_, rfl, rfl⟩⟩

theorem witness_OnlyEndRaisesAFault :
    (∃ t, step (offered (pending 1#6) (rleSlot .endOfInput)) = .next t ∧
      (offered (pending 1#6) (rleSlot .endOfInput)).rle.phase ≠ .fault ∧ t.rle.phase = .fault) ∧
    (∃ t, step (offered State.reset (hdrSlot .endOfInput)) = .next t ∧
      (offered State.reset (hdrSlot .endOfInput)).hdr.phase ≠ .fault ∧ t.hdr.phase = .fault) := by
  exact ⟨⟨_, rfl, by decide, by decide⟩, ⟨_, rfl, by decide, by decide⟩⟩

theorem witness_OperationsChangeTheirOwnUnitAlone :
    (∃ t, exec (.litLow 0#8) State.reset = .next t) ∧ (∃ t, exec (.hdrCapture 0#8) State.reset = .next t) ∧
    (∃ t, exec .hdrBpp vectorFA = .next t) ∧ (Instr.litLow 0#8).port = .rle ∧ (Instr.hdrCapture 0#8).port = .hdr ∧
    Instr.hdrBpp.port = .field := by
  exact ⟨⟨_, rfl⟩, ⟨_, rfl⟩, ⟨_, rfl⟩, rfl, rfl, rfl⟩

theorem witness_UnitsCommute :
    (Instr.hdrCapture 7#8).port ≠ .rle ∧ (Instr.runMark 3#6).port = .rle ∧
    (∃ t, exec (.hdrCapture 7#8) State.reset = .next t) ∧ (∃ u, exec (.runMark 3#6) State.reset = .next u) := by
  exact ⟨by decide, rfl, ⟨_, rfl⟩, ⟨_, rfl⟩⟩

theorem witness_StatusReadsHaveNoSideEffect :
    State.reset.rstSeen = true ∧ (State.reset.startWait = true → State.reset.undrained ≠ []) ∧
    (offered State.reset { req := .readReg 0 }).inbox = { req := .readReg 0 } :: [] ∧
    (offered State.reset { req := .readReg 1 }).inbox = { req := .readReg 1 } :: [] ∧
    (offered State.reset { req := .readReg 2 }).inbox = { req := .readReg 2 } :: [] := by decide

theorem witness_HdrValidReadIsDone :
    vectorFA.rstSeen = true ∧ (vectorFA.startWait = true → vectorFA.undrained ≠ []) ∧
    (offered vectorFA { req := .readHdrValid }).inbox = { req := .readHdrValid } :: [] := by decide

/-- A source of a header and region bytes, its separator and palette zeros. -/
def sourceOf (h : Header) (region : List Byte) : List Byte := serialise h ++ region ++ List.replicate 769 0#8

/-- A 900-byte source: `headerS10` and three region bytes of a run and a literal. -/
def sourceS10 : List Byte := sourceOf headerS10 [0xC1#8, 0x00#8, 0x01#8]

/-- `headerS10` with `xmax` < `xmin`, width 0 (X9). -/
def headerX9 : Header := { headerS10 with xmin := 5#16, xmax := 4#16 }

set_option maxRecDepth 20000 in
theorem witness_source_lengths :
    897 ≤ sourceS10.length ∧ 897 ≤ (List.replicate 897 (0#8)).length ∧ (List.replicate 127 (0#8)).length < 128 ∧
    128 ≤ (List.replicate 128 (0#8)).length ∧ (List.replicate 896 (0#8)).length < 897 := by decide

set_option maxRecDepth 20000 in
theorem witness_PaletteEntriesAreTriples :
    sourceS10[sourceS10.length - 768 + 3 * (255#8).toNat]? = some 0#8 ∧
    sourceS10[sourceS10.length - 768 + 3 * (255#8).toNat + 1]? = some 0#8 ∧
    sourceS10[sourceS10.length - 768 + 3 * (255#8).toNat + 2]? = some 0#8 := by decide

theorem witness_GridCellsFollowRasterOrder :
    (1 : Nat) < 2 ∧ (0 : Nat) < 1 ∧ ([7#8] : List Byte)[0 * 2 + 0]? = some 7#8 ∧ ([7#8] : List Byte).length ≤ 0 * 2 + 1 := by
  decide

theorem witness_ContainerThenGridOnRequest :
    State.reset.Inv ∧ gridWidth .documented headerX9 ≤ 0 ∧
    0 < gridWidth .documented headerS10 ∧ 0 < gridHeight headerS10 ∧
    decodeStream [0xC1#8, 0x00#8, 0x01#8] = .ok [0x00#8, 0x01#8] ∧
    decodeStream [0xC1#8] = .truncatedRun [] 1#6 := by decide

set_option maxRecDepth 20000 in
theorem witness_HostDecodeFollowsFraming :
    State.reset.Inv ∧ 897 ≤ sourceS10.length ∧ serialise headerS10 = sourceS10.take 128 ∧ headerS10.bpp = 8#8 ∧
    headerS10.nplanes = 1#8 ∧ 0 < gridWidth .documented headerS10 ∧ 0 < gridHeight headerS10 ∧
    decodeStream (compressedRegion sourceS10) = .ok [0x00#8, 0x01#8] := by decide

set_option maxRecDepth 20000 in
/-- The truncated-region clause: the region is one dangling marker. -/
theorem witness_HostDecode_truncated :
    897 ≤ (sourceOf headerS10 [0xC1#8]).length ∧ serialise headerS10 = (sourceOf headerS10 [0xC1#8]).take 128 ∧
    decodeStream (compressedRegion (sourceOf headerS10 [0xC1#8])) = .truncatedRun [] 1#6 := by decide

set_option maxRecDepth 20000 in
/-- The refused-dimensions clause, at the smallest source. -/
theorem witness_HostDecode_refused :
    897 ≤ (sourceOf headerX9 []).length ∧ serialise headerX9 = (sourceOf headerX9 []).take 128 ∧
    headerX9.bpp = 8#8 ∧ headerX9.nplanes = 1#8 ∧ gridWidth .documented headerX9 ≤ 0 := by decide

set_option maxRecDepth 20000 in
/-- The format clauses. -/
theorem witness_HostDecode_format :
    897 ≤ (sourceOf { headerS10 with bpp := 4#8 } []).length ∧
    serialise { headerS10 with bpp := 4#8 } = (sourceOf { headerS10 with bpp := 4#8 } []).take 128 ∧
    { headerS10 with bpp := 4#8 }.bpp ≠ 8#8 ∧
    serialise { headerS10 with nplanes := 3#8 } = (sourceOf { headerS10 with nplanes := 3#8 } []).take 128 ∧
    { headerS10 with nplanes := 3#8 }.bpp = 8#8 ∧ { headerS10 with nplanes := 3#8 }.nplanes ≠ 1#8 := by decide

/-- STATUS's legal values are stated of states that meet the invariant. -/
theorem witness_StatusFields : State.reset.Inv ∧ vectorFA.Inv := by decide

end Sys2Proof.Tests
end

/-! # Proofs: scope

The invariant of a run (R24, R25, R30, R31, R32, R41, R243): what gives it, what each operation does to it, and the
step. Each operation's effect is met through its inversion lemma in Laws/, unit by unit. -/

namespace Sys2Proof.Machine

/-! ## Reset -/

theorem hdrReset_inv : Hdr.reset.Inv := by decide

theorem rleReset_inv : Rle.reset.Inv := by decide

/-- `rst` gives the invariant whatever the state before it (R240). -/
theorem applyRst_inv (s : State) : (applyRst s).Inv :=
  ⟨rfl, hdrReset_inv, rleReset_inv, ⟨Nat.zero_le _, by simp⟩, Nat.two_pow_pos _⟩

/-- The reset state is one that `rst` leaves as it is (R40, R240). -/
theorem resetAt_inv (w : Nat) : (State.resetAt w).Inv := applyRst_inv (State.resetAt w)

/-! ## The invariant and the parts of the state -/

theorem logRead_inv {v : ReadValue} {s : State} : (logRead v s).Inv ↔ s.Inv := Iff.rfl

theorem holdWord_inv {w : PortWord} {s : State} : (holdWord w s).Inv ↔ s.Inv := Iff.rfl

theorem inv_with_inbox {s : State} {slots : List Slot} : State.Inv { s with inbox := slots } ↔ s.Inv := Iff.rfl

/-- Only HDR changes, to a state that meets its own invariant. -/
theorem inv_with_hdr {s : State} {h : Hdr} (hs : s.Inv) (hh : h.Inv) : State.Inv { s with hdr := h } := by
  obtain ⟨hrst, -, hrle, hport, hpos⟩ := hs
  exact ⟨hrst, hh, hrle, hport, hpos⟩

/-- RLE changes with nothing undrained and puts at most 63 bytes on the port: no start waits there, so none is left
waiting whatever is emitted. -/
theorem inv_of_rle_emission {s t : State} (hs : s.Inv) (hu : s.undrained = [])
    (hframe : t = { s with rle := t.rle, undrained := t.undrained }) (hr : t.rle.Inv)
    (hpos : t.rle.pos < 2 ^ s.posW) (hout : t.undrained.length ≤ 63) : t.Inv := by
  obtain ⟨hrst, hhdr, -, ⟨-, hwait⟩, -⟩ := hs
  rw [hframe]
  exact ⟨hrst, hhdr, hr, ⟨hout, fun hw => absurd hu (hwait hw)⟩, hpos⟩

/-- RLE's invariant in ACTIVE asks only for no error and for count 0 outside a run. -/
theorem rleInv_of_active {r : Rle} (hp : r.phase = .active) (he : r.err = .none)
    (hc : r.pend = false → r.cnt = 0#6) : r.Inv := by
  simpa [Rle.Inv, hp, he] using hc

/-! ## The HDR effects -/

theorem capturedHdr_cur_toNat (b : Byte) {h : Hdr} (hc : h.cur.toNat < 128) :
    (capturedHdr b h).cur.toNat = h.cur.toNat + 1 :=
  (BitVec.toNat_add _ _).trans (Nat.mod_eq_of_lt (by simp; omega))

/-- A capture ends ACTIVE exactly where it brings the cursor to 128 (R101). -/
theorem capturedHdr_phase (b : Byte) {h : Hdr} (ha : h.phase = .active) :
    (capturedHdr b h).phase = if (capturedHdr b h).cur.toNat = 128 then .done else .active := by
  have hfull : h.cur + 1 = 128#8 ↔ (h.cur + 1).toNat = 128 := BitVec.toNat_inj.symm
  simp only [capturedHdr, beq_iff_eq, hfull, ha]

/-- Where the written offsets are those below the cursor, a capture writes the next one (R25, R101). -/
theorem capturedHdr_offsets (b : Byte) {h : Hdr} (hc : h.cur.toNat < 128)
    (hbuf : h.buf.map (fun c => c.1) = List.range h.cur.toNat) :
    (capturedHdr b h).buf.map (fun c => c.1) = List.range (capturedHdr b h).cur.toNat := by
  have hbelow : ∀ c ∈ h.buf, c.1 < h.cur.toNat := fun c hmem =>
    List.mem_range.1 (hbuf ▸ List.mem_map_of_mem hmem)
  have hset : (capturedHdr b h).buf = h.buf ++ [(h.cur.toNat, b)] := set_at_end b hbelow
  rw [hset, List.map_append, hbuf, capturedHdr_cur_toNat b hc, List.range_succ]
  rfl

/-- A capture keeps HDR's invariant: the byte goes to the end of what is written, and the cursor reaches 128 exactly
with DONE (R24, R25, R101). -/
theorem capturedHdr_inv {h : Hdr} (b : Byte) (hi : h.Inv) (ha : h.phase = .active) : (capturedHdr b h).Inv := by
  obtain ⟨hlt, -, -, herr, hbuf⟩ := hi
  have hc : h.cur.toNat < 128 := hlt ha
  have herr' : (capturedHdr b h).err = .none := herr.trans (if_neg (by simp [ha]))
  have hoffsets := capturedHdr_offsets b hc hbuf
  have hphase := capturedHdr_phase b ha
  have hcur := capturedHdr_cur_toNat b hc
  by_cases hfull : (capturedHdr b h).cur.toNat = 128
  · rw [if_pos hfull] at hphase
    simp [Hdr.Inv, hphase, hfull, herr', hoffsets]
  · rw [if_neg hfull] at hphase
    have hlt' : (capturedHdr b h).cur.toNat < 128 := by omega
    simp [Hdr.Inv, hphase, hfull, hlt', herr', hoffsets]

/-- TRUNCATED_INPUT keeps HDR's invariant: the cursor stays below 128, where ACTIVE had it (R24, R103). -/
theorem hdrFault_inv {h : Hdr} (hi : h.Inv) (ha : h.phase = .active) :
    Hdr.Inv { h with phase := .fault, err := .truncatedInput } := by
  obtain ⟨hlt, -, -, -, hbuf⟩ := hi
  have hc : h.cur.toNat < 128 := hlt ha
  exact ⟨fun _ => hc, by simp; omega, fun _ => hc, rfl, hbuf⟩

/-! ## Operations -/

theorem exec_hdr_inv {i : Instr} {s t : State} (hp : i.port = .hdr) (hs : s.Inv) (h : exec i s = .next t) :
    t.Inv := by
  have ⟨_, hhdr, _⟩ := hs
  rcases exec_hdr_next hp h with ⟨-, rfl⟩ | ⟨ha, ⟨b, -, -, rfl⟩ | ⟨-, rfl⟩⟩
  · exact hs
  · exact inv_with_hdr hs (capturedHdr_inv b hhdr ha)
  · exact inv_with_hdr hs (hdrFault_inv hhdr ha)

theorem exec_rle_inv {i : Instr} {s t : State} (hp : i.port = .rle) (hs : s.Inv) (h : exec i s = .next t) :
    t.Inv := by
  have ⟨_, _, ⟨hcnt, _, _, herr⟩, _, hpos⟩ := hs
  rcases exec_rle_next hp h with ⟨-, rfl⟩ | ⟨ha, hu, heffect⟩
  · exact hs
  rw [ha, if_neg (by decide)] at herr
  have hrun : ∀ n : BitVec 6, n.toNat ≤ 63 := fun n => by omega
  rcases heffect with ⟨-, v, rfl⟩ | ⟨-, n, d, rfl⟩ | ⟨-, n, rfl⟩ | ⟨-, d, rfl⟩ | ⟨hpend, -, rfl⟩ | ⟨hpend, -, rfl⟩
  · exact inv_of_rle_emission hs hu rfl (rleInv_of_active ha herr hcnt) (wrapPos_lt _ _) (by simp [hu])
  · exact inv_of_rle_emission hs hu rfl (rleInv_of_active ha herr fun _ => rfl) (wrapPos_lt _ _) (by simp [hu, hrun])
  · exact inv_of_rle_emission hs hu rfl (rleInv_of_active ha herr fun h => by cases h) (wrapPos_lt _ _) (by simp [hu])
  · exact inv_of_rle_emission hs hu rfl (rleInv_of_active ha herr fun _ => rfl) (wrapPos_lt _ _) (by simp [hu, hrun])
  · exact inv_of_rle_emission hs hu rfl (by simp [Rle.Inv, hpend, hcnt, herr]) hpos (by simp [hu])
  · exact inv_of_rle_emission hs hu rfl (by simp [Rle.Inv, hpend]) hpos (by simp [hu])

/-- Every operation that completes keeps the invariant. -/
theorem exec_inv {i : Instr} {s t : State} (hs : s.Inv) (h : exec i s = .next t) : t.Inv := by
  rcases port_cases i with hp | hp | hp
  · exact exec_rle_inv hp hs h
  · exact exec_hdr_inv hp hs h
  · obtain ⟨-, v, rfl⟩ := exec_field_next hp h
    exact logRead_inv.2 hs

/-- No operation changes POS_W (R7). -/
theorem exec_posW {i : Instr} {s t : State} (h : exec i s = .next t) : t.posW = s.posW := by
  rcases port_cases i with hp | hp | hp
  · rcases exec_rle_next hp h with ⟨-, rfl⟩ | ⟨-, -, ⟨-, v, rfl⟩ | ⟨-, n, d, rfl⟩ | ⟨-, n, rfl⟩ | ⟨-, d, rfl⟩ |
      ⟨-, -, rfl⟩ | ⟨-, -, rfl⟩⟩ <;> rfl
  · rcases exec_hdr_next hp h with ⟨-, rfl⟩ | ⟨-, ⟨b, -, -, rfl⟩ | ⟨-, rfl⟩⟩ <;> rfl
  · obtain ⟨-, v, rfl⟩ := exec_field_next hp h
    rfl

/-! ## The parts of a slot -/

/-- A request keeps the invariant. -/
theorem runRequest_inv {sl : Slot} {s t : State} (hs : s.Inv) (h : runRequest sl s = .next t) : t.Inv := by
  rcases runRequest_next h with rfl | ⟨w, i, -, -, -, -, he⟩ | ⟨w, -, -, rfl⟩ | ⟨v, rfl⟩
  · exact hs
  · exact exec_inv hs he
  · exact holdWord_inv.2 hs
  · exact logRead_inv.2 hs

theorem runRequest_posW {sl : Slot} {s t : State} (h : runRequest sl s = .next t) : t.posW = s.posW := by
  rcases runRequest_next h with rfl | ⟨w, i, -, -, -, -, he⟩ | ⟨w, -, -, rfl⟩ | ⟨v, rfl⟩
  · rfl
  · exact exec_posW he
  · rfl
  · rfl

theorem applyHdrStart_inv {s : State} (hs : s.Inv) : (applyHdrStart s).Inv := inv_with_hdr hs hdrReset_inv

/-- A start of RLE keeps the invariant: it acts at once, or waits with output undrained (R243). -/
theorem applyRleStart_inv {s : State} (hs : s.Inv) : (applyRleStart s).Inv := by
  obtain ⟨hrst, hhdr, hrle, ⟨hlen, -⟩, hpos⟩ := hs
  rcases applyRleStart_cases s with ⟨-, e⟩ | ⟨hu, e⟩ <;> rw [e]
  · exact ⟨hrst, hhdr, rleReset_inv, ⟨hlen, nofun⟩, Nat.two_pow_pos _⟩
  · exact ⟨hrst, hhdr, hrle, ⟨hlen, fun _ => hu⟩, hpos⟩

/-- The controls keep the invariant, and with `rst` they give it from any state. -/
theorem applyControls_inv {sl : Slot} {s : State} (hs : s.Inv ∨ sl.rst = true) : (applyControls sl s).Inv := by
  unfold applyControls
  split
  · exact applyRst_inv s
  · rename_i hrst
    replace hs := hs.resolve_right hrst
    split <;> split
    · exact applyRleStart_inv (applyHdrStart_inv hs)
    · exact applyHdrStart_inv hs
    · exact applyRleStart_inv hs
    · exact hs

@[simp] theorem applyRleStart_posW (s : State) : (applyRleStart s).posW = s.posW := by
  rcases applyRleStart_cases s with ⟨-, e⟩ | ⟨-, e⟩ <;> rw [e]

@[simp] theorem applyControls_posW (sl : Slot) (s : State) : (applyControls sl s).posW = s.posW := by
  unfold applyControls
  split
  · rfl
  · split <;> split <;> simp

/-- The sink's transfer keeps the invariant: what is left is no longer than before, and a start still waits only if
something is left. -/
theorem takeOutput_inv {k : Nat} {s : State} (hs : s.Inv) : (takeOutput k s).Inv := by
  obtain ⟨hrst, hhdr, hrle, ⟨hlen, -⟩, hpos⟩ := hs
  rcases takeOutput_cases k s with ⟨hwait, e⟩ | ⟨-, -, e⟩ <;> rw [e]
  · refine ⟨hrst, hhdr, hrle, ⟨?_, fun hw => hwait.resolve_left (by simpa using hw)⟩, hpos⟩
    exact (List.drop_sublist k s.undrained).length_le.trans hlen
  · exact ⟨hrst, hhdr, rleReset_inv, ⟨Nat.zero_le _, nofun⟩, Nat.two_pow_pos _⟩

/-! ## The step -/

/-- Every step keeps the invariant. -/
theorem step_inv {s t : State} (hs : s.Inv) (h : step s = .next t) : t.Inv := by
  rcases step_next h with ⟨-, -, rfl⟩ | ⟨sl, rest, -, -, u, hu, rfl⟩
  · exact hs
  · exact takeOutput_inv (runRequest_inv (applyControls_inv (.inl (inv_with_inbox.2 hs))) hu)

/-- No step changes POS_W (R7). -/
theorem step_posW {s t : State} (h : step s = .next t) : t.posW = s.posW := by
  rcases step_next h with ⟨-, -, rfl⟩ | ⟨sl, rest, -, -, u, hu, rfl⟩
  · rfl
  · rw [takeOutput_posW, runRequest_posW hu, applyControls_posW]

/-- A slot after the first `rst`, or with `rst`: its controls, its request, the sink's transfer (R244). -/
theorem stepSlot_eq {sl : Slot} {s : State} (h : s.rstSeen = true ∨ sl.rst = true) :
    stepSlot sl s = andThen (runRequest sl (applyControls sl s)) fun t => .next (takeOutput sl.take t) := by
  rw [stepSlot, if_pos (by simpa using h)]

/-- A word on a ready port that no control blocks is run as the operation it decodes to. -/
theorem runRequest_of_accepted {sl : Slot} {w : PortWord} {i : Instr} {s : State} (hreq : sl.req = .offer w)
    (hblock : blockedByControl sl w = false) (hready : portReady w s = true)
    (hdecode : decode s.rle.pend w = .ok i) : runRequest sl s = exec i s := by
  simp [runRequest, hreq, hblock, hready, runWord, hdecode]

/-! ## The obligations -/

/-- Settles O38: the controls, the request and the sink's transfer each keep the invariant and POS_W. -/
theorem stepKeepsInvariant : Obligations.StepKeepsInvariant :=
  fun _ _ hs h => ⟨step_inv hs h, step_posW h⟩

/-- Settles O36: the step is the slot's, and the slot's request is the accepted word. -/
theorem stepRunsDecodedOperation : Obligations.StepRunsDecodedOperation := by
  intro s sl rest w i hinbox hreq hrst hblock hready hdecode
  rw [step_of_slot hinbox, stepSlot_eq (s := { s with inbox := rest }) hrst,
    runRequest_of_accepted hreq hblock hready hdecode]

/-- Settles O39: the reset state is what `rst` gives, at every POS_W. -/
theorem resetHasInvariant : Obligations.ResetHasInvariant :=
  ⟨fun w => ⟨resetAt_inv w, resetAt_posW w⟩, rfl⟩

end Sys2Proof.Machine

/-! # Proofs: state

The units and what an operation, a slot and a step may change of them (R20, R58, R62, R215), the output stream (R35,
R41), the field reads (R25, R26, R40) and the status space (R37, R39). -/

namespace Sys2Proof.Machine

/-! ## An operation changes its own unit -/

theorem exec_rle_frame {i : Instr} {s t : State} (hp : i.port = .rle) (h : exec i s = .next t) :
    t = { s with rle := t.rle, undrained := t.undrained } := by
  rcases exec_rle_next hp h with ⟨-, rfl⟩ | ⟨-, -, ⟨-, v, rfl⟩ | ⟨-, n, d, rfl⟩ | ⟨-, n, rfl⟩ | ⟨-, d, rfl⟩ |
    ⟨-, -, rfl⟩ | ⟨-, -, rfl⟩⟩ <;> rfl

theorem exec_hdr_frame {i : Instr} {s t : State} (hp : i.port = .hdr) (h : exec i s = .next t) :
    t = { s with hdr := t.hdr } := by
  rcases exec_hdr_next hp h with ⟨-, rfl⟩ | ⟨-, ⟨b, -, -, rfl⟩ | ⟨-, rfl⟩⟩ <;> rfl

theorem exec_field_frame {i : Instr} {s t : State} (hp : i.port = .field) (h : exec i s = .next t) :
    t = { s with reads := t.reads } := by
  obtain ⟨-, v, rfl⟩ := exec_field_next hp h
  rfl

/-- What is not an operation of RLE changes HDR and the host's reads at most. -/
theorem exec_frame_of_port_ne_rle {i : Instr} {s t : State} (hp : i.port ≠ .rle) (h : exec i s = .next t) :
    t = { s with hdr := t.hdr, reads := t.reads } := by
  rcases (port_cases i).resolve_left hp with hp | hp
  · obtain ⟨h', rfl⟩ : ∃ h', t = { s with hdr := h' } := ⟨_, exec_hdr_frame hp h⟩
    rfl
  · obtain ⟨rs, rfl⟩ : ∃ rs, t = { s with reads := rs } := ⟨_, exec_field_frame hp h⟩
    rfl

/-- No operation touches what the sink has. -/
theorem exec_sink {i : Instr} {s t : State} (h : exec i s = .next t) : t.sink = s.sink := by
  by_cases hp : i.port = .rle
  · rw [exec_rle_frame hp h]
  · rw [exec_frame_of_port_ne_rle hp h]

/-! ## An operation does not see the other unit -/

/-- The state with another HDR unit and other reads. -/
def State.withHdr (h : Hdr) (rs : List ReadValue) (s : State) : State := { s with hdr := h, reads := rs }

/-- The state with another RLE unit and other bytes on its output port. -/
def State.withRle (r : Rle) (out : List Byte) (s : State) : State := { s with rle := r, undrained := out }

@[simp] theorem rleInReady_withHdr (h : Hdr) (rs : List ReadValue) (s : State) :
    rleInReady (s.withHdr h rs) = rleInReady s := rfl

@[simp] theorem withHdr_rle (h : Hdr) (rs : List ReadValue) (s : State) : (s.withHdr h rs).rle = s.rle := rfl

@[simp] theorem hdrInReady_withRle (r : Rle) (out : List Byte) (s : State) :
    hdrInReady (s.withRle r out) = hdrInReady s := rfl

@[simp] theorem hdrValid_withRle (r : Rle) (out : List Byte) (s : State) :
    hdrValid (s.withRle r out) = hdrValid s := rfl

/-- `op` neither looks at nor writes what `f` replaces: it answers as without the replacement, which stays. -/
def Ignores (op : State → Host.Outcome State Fault Refusal) (f : State → State) : Prop :=
  ∀ s, op (f s) = andThen (op s) fun t => .next (f t)

theorem Ignores.next {op : State → Host.Outcome State Fault Refusal} {f : State → State} {s t : State}
    (ho : Ignores op f) (h : op s = .next t) : op (f s) = .next (f t) := by
  rw [ho s, h, andThen_next]

theorem whenRleAccepts_ignores_withHdr {p : Bool} {e : State → State} {h : Hdr} {rs : List ReadValue}
    (he : ∀ s, e (s.withHdr h rs) = (e s).withHdr h rs) :
    Ignores (whenRleAccepts p e) (State.withHdr h rs) := by
  intro s
  simp only [whenRleAccepts, rleInReady_withHdr, withHdr_rle, he]
  split
  · split <;> rfl
  · rfl

theorem whenHdrAccepts_ignores_withRle {e : State → Host.Outcome State Fault Refusal} {r : Rle} {out : List Byte}
    (he : Ignores e (State.withRle r out)) : Ignores (whenHdrAccepts e) (State.withRle r out) := by
  intro s
  simp only [whenHdrAccepts, hdrInReady_withRle, he s]
  split <;> rfl

theorem whenHdrValid_ignores_withRle {e : State → Host.Outcome State Fault Refusal} {r : Rle} {out : List Byte}
    (he : Ignores e (State.withRle r out)) : Ignores (whenHdrValid e) (State.withRle r out) := by
  intro s
  simp only [whenHdrValid, hdrValid_withRle, he s]
  split <;> rfl

/-- Reading a value off the header's bytes and logging it does not see RLE. -/
theorem logged_ignores_withRle {α : Type} (g : Memory → Host.Outcome α Fault Refusal) (c : α → ReadValue) (r : Rle)
    (out : List Byte) :
    Ignores (fun s => andThen (g s.hdr.buf) fun v => .next (logRead (c v) s)) (State.withRle r out) := by
  intro s
  show andThen (g s.hdr.buf) _ = andThen (andThen (g s.hdr.buf) _) _
  cases g s.hdr.buf <;> rfl

theorem captureEffect_ignores_withRle (b : Byte) (r : Rle) (out : List Byte) :
    Ignores (captureEffect b) (State.withRle r out) := by
  intro s
  show andThen (memWrite s.hdr.buf s.hdr.cur.toNat b) _ = andThen (andThen (memWrite s.hdr.buf s.hdr.cur.toNat b) _) _
  cases memWrite s.hdr.buf s.hdr.cur.toNat b <;> rfl

/-- No RLE operation sees HDR or the host's reads. -/
theorem exec_rle_ignores_withHdr {i : Instr} (hp : i.port = .rle) (h : Hdr) (rs : List ReadValue) :
    Ignores (exec i) (State.withHdr h rs) := by
  cases i with
  | litLow v => exact whenRleAccepts_ignores_withHdr fun _ => rfl
  | litHigh v => exact whenRleAccepts_ignores_withHdr fun _ => rfl
  | run n d => exact whenRleAccepts_ignores_withHdr fun _ => rfl
  | runMark n => exact whenRleAccepts_ignores_withHdr fun _ => rfl
  | runData d => exact whenRleAccepts_ignores_withHdr fun _ => rfl
  | endIdle => exact whenRleAccepts_ignores_withHdr fun _ => rfl
  | endPend => exact whenRleAccepts_ignores_withHdr fun _ => rfl
  | _ => cases hp

theorem exec_hdr_ignores_withRle {i : Instr} (hp : i.port = .hdr) (r : Rle) (out : List Byte) :
    Ignores (exec i) (State.withRle r out) := by
  cases i with
  | hdrCapture b => exact whenHdrAccepts_ignores_withRle (captureEffect_ignores_withRle b r out)
  | hdrEnd => exact whenHdrAccepts_ignores_withRle fun _ => rfl
  | _ => cases hp

theorem exec_field_ignores_withRle {i : Instr} (hp : i.port = .field) (r : Rle) (out : List Byte) :
    Ignores (exec i) (State.withRle r out) := by
  intro s
  rcases exec_field_form hp with ⟨o, -, e⟩ | ⟨o, -, e⟩ | ⟨o, k, -, e⟩ <;> rw [e, e]
  · exact whenHdrValid_ignores_withRle (logged_ignores_withRle (memRead1 · o) .byte r out) s
  · exact whenHdrValid_ignores_withRle (logged_ignores_withRle (memRead2 · o) .half r out) s
  · exact whenHdrValid_ignores_withRle (logged_ignores_withRle (memReadBlock · o k) .block r out) s

/-- What is not an operation of RLE does not see RLE or its output. -/
theorem exec_ignores_withRle {i : Instr} (hp : i.port ≠ .rle) (r : Rle) (out : List Byte) :
    Ignores (exec i) (State.withRle r out) :=
  ((port_cases i).resolve_left hp).elim (exec_hdr_ignores_withRle · r out) (exec_field_ignores_withRle · r out)

/-! ## The output of an operation -/

/-- An RLE operation emits at most 63 bytes, and none while output is undrained (R35, R41, R56). -/
theorem exec_rle_output {i : Instr} {s t : State} (hp : i.port = .rle) (h : exec i s = .next t) :
    ∃ bs, t.undrained = s.undrained ++ bs ∧ bs.length ≤ 63 ∧ (s.undrained ≠ [] → bs = []) := by
  have hrun : ∀ (n : BitVec 6) (d : Byte), (List.replicate n.toNat d).length ≤ 63 := by
    intro n d
    rw [List.length_replicate]
    omega
  rcases exec_rle_next hp h with ⟨-, rfl⟩ | ⟨-, hu, heffect⟩
  · exact ⟨[], by simp⟩
  rcases heffect with ⟨-, v, rfl⟩ | ⟨-, n, d, rfl⟩ | ⟨-, n, rfl⟩ | ⟨-, d, rfl⟩ | ⟨-, -, rfl⟩ | ⟨-, -, rfl⟩
  · exact ⟨[v], rfl, by simp, absurd hu⟩
  · exact ⟨_, rfl, hrun n d, absurd hu⟩
  · exact ⟨[], by simp⟩
  · exact ⟨_, rfl, hrun _ d, absurd hu⟩
  · exact ⟨[], by simp⟩
  · exact ⟨[], by simp⟩

/-! ## A request and the units -/

/-- A request leaves RLE and its output alone, or it is a word on RLE's port, accepted with no `rst` and no `rle_start`
in its slot (R241). -/
theorem runRequest_rle {sl : Slot} {s t : State} (h : runRequest sl s = .next t) :
    (t.rle = s.rle ∧ t.undrained = s.undrained) ∨
    ∃ w i, sl.req = .offer w ∧ sl.rst = false ∧ sl.rleStart = false ∧ i.port = .rle ∧
      decode s.rle.pend w = .ok i ∧ exec i s = .next t := by
  rcases runRequest_next h with rfl | ⟨w, i, hreq, hblock, -, hdec, he⟩ | ⟨w, -, -, rfl⟩ | ⟨v, rfl⟩
  · exact .inl ⟨rfl, rfl⟩
  · by_cases hp : i.port = .rle
    · have hw : w.port = .rle := (decode_port hdec).symm.trans hp
      simp only [blockedByControl, hw, Bool.or_eq_false_iff] at hblock
      exact .inr ⟨w, i, hreq, hblock.1, hblock.2, hp, hdec, he⟩
    · left
      rw [exec_frame_of_port_ne_rle hp he]
      exact ⟨rfl, rfl⟩
  · exact .inl ⟨rfl, rfl⟩
  · exact .inl ⟨rfl, rfl⟩

/-- A request leaves HDR alone, or it is a word on HDR's port, accepted with no `rst` and no `hdr_start` in its slot
(R241). -/
theorem runRequest_hdr {sl : Slot} {s t : State} (h : runRequest sl s = .next t) :
    t.hdr = s.hdr ∨
    ∃ w i, sl.req = .offer w ∧ sl.rst = false ∧ sl.hdrStart = false ∧ i.port = .hdr ∧
      decode s.rle.pend w = .ok i ∧ exec i s = .next t := by
  rcases runRequest_next h with rfl | ⟨w, i, hreq, hblock, -, hdec, he⟩ | ⟨w, -, -, rfl⟩ | ⟨v, rfl⟩
  · exact .inl rfl
  · rcases port_cases i with hp | hp | hp
    · exact .inl (by rw [exec_rle_frame hp he])
    · have hw : w.port = .hdr := (decode_port hdec).symm.trans hp
      simp only [blockedByControl, hw, Bool.or_eq_false_iff] at hblock
      exact .inr ⟨w, i, hreq, hblock.1, hblock.2, hp, hdec, he⟩
    · exact .inl (by rw [exec_field_frame hp he])
  · exact .inl rfl
  · exact .inl rfl

theorem runRequest_sink {sl : Slot} {s t : State} (h : runRequest sl s = .next t) : t.sink = s.sink := by
  rcases runRequest_next h with rfl | ⟨w, i, -, -, -, -, he⟩ | ⟨w, -, -, rfl⟩ | ⟨v, rfl⟩
  · rfl
  · exact exec_sink he
  · rfl
  · rfl

/-- A request appends at most 63 bytes to the output stream, and none while output is undrained. -/
theorem runRequest_outputStream {sl : Slot} {s t : State} (h : runRequest sl s = .next t) :
    ∃ bs, outputStream t = outputStream s ++ bs ∧ bs.length ≤ 63 ∧ (s.undrained ≠ [] → bs = []) := by
  have hsink := runRequest_sink h
  rcases runRequest_rle h with ⟨-, hu⟩ | ⟨w, i, -, -, -, hp, -, he⟩
  · exact ⟨[], by simp [outputStream, hsink, hu]⟩
  · obtain ⟨bs, hu, hbs⟩ := exec_rle_output hp he
    exact ⟨bs, by simp [outputStream, hsink, hu], hbs⟩

/-! ## The controls, the sink and the units -/

theorem applyControls_of_rst {sl : Slot} (s : State) (h : sl.rst = true) : applyControls sl s = applyRst s := by
  simp [applyControls, h]

@[simp] theorem applyRleStart_hdr (s : State) : (applyRleStart s).hdr = s.hdr := by
  rcases applyRleStart_cases s with ⟨-, e⟩ | ⟨-, e⟩ <;> rw [e]

@[simp] theorem applyRleStart_undrained (s : State) : (applyRleStart s).undrained = s.undrained := by
  rcases applyRleStart_cases s with ⟨-, e⟩ | ⟨-, e⟩ <;> rw [e]

/-- Only `rst` discards undrained output (R240, R243). -/
theorem applyControls_undrained {sl : Slot} (s : State) (h : sl.rst = false) :
    (applyControls sl s).undrained = s.undrained := by
  unfold applyControls
  rw [if_neg (by simp [h])]
  split <;> split <;> simp

/-- The controls leave RLE as it is or in its reset state (R240, R243). -/
theorem applyControls_rle_cases (sl : Slot) (s : State) :
    (applyControls sl s).rle = s.rle ∨ (applyControls sl s).rle = Rle.reset := by
  have hstart : ∀ u : State, (applyRleStart u).rle = u.rle ∨ (applyRleStart u).rle = Rle.reset := by
    intro u
    rcases applyRleStart_cases u with ⟨-, e⟩ | ⟨-, e⟩ <;> rw [e]
    · exact .inr rfl
    · exact .inl rfl
  unfold applyControls
  split
  · exact .inr rfl
  · split <;> split
    · exact hstart (applyHdrStart s)
    · exact .inl rfl
    · exact hstart s
    · exact .inl rfl

/-- The controls leave HDR as it is or in its reset state (R240, R242). -/
theorem applyControls_hdr_cases (sl : Slot) (s : State) :
    (applyControls sl s).hdr = s.hdr ∨ (applyControls sl s).hdr = Hdr.reset := by
  unfold applyControls
  split
  · exact .inr rfl
  · split <;> split <;> simp

/-- The sink's transfer leaves RLE as it is or in its reset state (R243). -/
theorem takeOutput_rle_cases (k : Nat) (s : State) :
    (takeOutput k s).rle = s.rle ∨ (takeOutput k s).rle = Rle.reset := by
  rcases takeOutput_cases k s with ⟨-, e⟩ | ⟨-, -, e⟩ <;> rw [e]
  · exact .inl rfl
  · exact .inr rfl

/-- The sink's transfer moves bytes along the output stream and leaves the stream the same (R35). -/
@[simp] theorem takeOutput_outputStream (k : Nat) (s : State) : outputStream (takeOutput k s) = outputStream s := by
  simp [outputStream]

/-- A step with something to come is that slot's controls, its request and the sink's transfer. -/
theorem step_next_of_head {s t : State} {sl : Slot} (hhead : s.inbox.head? = some sl) (h : step s = .next t) :
    ∃ rest u, s.inbox = sl :: rest ∧ runRequest sl (applyControls sl { s with inbox := rest }) = .next u ∧
      t = takeOutput sl.take u := by
  obtain ⟨rest, hinbox⟩ := List.head?_eq_some_iff.1 hhead
  rw [step_of_slot hinbox] at h
  obtain ⟨-, u, hu, ht⟩ := stepSlot_next.1 h
  exact ⟨rest, u, hinbox, hu, ht⟩

/-! ## Entering FAULT -/

/-- A byte on RLE's port is no `END` (R70, R215). -/
theorem decodeRleByte_ne_endPend (p : Bool) (b : Byte) : decodeRleByte p b ≠ .endPend := by
  unfold decodeRleByte
  split
  · nofun
  · split
    · nofun
    · split <;> nofun

/-- `END` with a run pending is decoded from `END` alone. -/
theorem word_of_decode_endPend {p : Bool} {w : PortWord} (h : decode p w = .ok .endPend) :
    w = .rleSym .endOfInput := by
  have hport := decode_port h
  match w with
  | .rleSym .endOfInput => rfl
  | .rleSym (.byte b) => exact absurd (Except.ok.inj h) (decodeRleByte_ne_endPend p b)
  | .rleItem m d =>
    replace h : decodeRleItem p m d = .ok .endPend := h
    unfold decodeRleItem at h
    split at h
    · cases h
    · split at h <;> cases h
  | .hdrSym _ => cases hport
  | .fieldRead _ => cases hport

/-- `END` on HDR's port is decoded from `END` alone. -/
theorem word_of_decode_hdrEnd {p : Bool} {w : PortWord} (h : decode p w = .ok .hdrEnd) :
    w = .hdrSym .endOfInput := by
  have hport := decode_port h
  match w with
  | .hdrSym .endOfInput => rfl
  | .hdrSym (.byte b) => cases h
  | .rleSym _ => cases hport
  | .rleItem _ _ => cases hport
  | .fieldRead _ => cases hport

/-- The one RLE operation that enters FAULT is `END` with a run pending (R147, R215). -/
theorem exec_rle_enters_fault {i : Instr} {s t : State} (hp : i.port = .rle) (h : exec i s = .next t)
    (hs : s.rle.phase ≠ .fault) (ht : t.rle.phase = .fault) :
    i = .endPend ∧ s.rle.phase = .active ∧ s.undrained = [] ∧ s.rle.pend = true := by
  rcases exec_rle_next hp h with ⟨-, rfl⟩ | ⟨ha, hu, heffect⟩
  · exact absurd ht hs
  rcases heffect with ⟨-, v, rfl⟩ | ⟨-, n, d, rfl⟩ | ⟨-, n, rfl⟩ | ⟨-, d, rfl⟩ | ⟨-, -, rfl⟩ | ⟨hpend, hi, -⟩
  · exact absurd ht hs
  · exact absurd ht hs
  · exact absurd ht hs
  · exact absurd ht hs
  · cases ht
  · exact ⟨hi, ha, hu, hpend⟩

/-- The one HDR operation that enters FAULT is `END` (R103, R215). -/
theorem exec_hdr_enters_fault {i : Instr} {s t : State} (hp : i.port = .hdr) (h : exec i s = .next t)
    (hs : s.hdr.phase ≠ .fault) (ht : t.hdr.phase = .fault) : i = .hdrEnd ∧ s.hdr.phase = .active := by
  rcases exec_hdr_next hp h with ⟨-, rfl⟩ | ⟨ha, ⟨b, -, -, rfl⟩ | ⟨hi, -⟩⟩
  · exact absurd ht hs
  · replace ht : (capturedHdr b s.hdr).phase = .fault := ht
    rw [capturedHdr_phase b ha] at ht
    split at ht <;> cases ht
  · exact ⟨hi, ha⟩

/-- A slot takes RLE into FAULT only by an accepted `END` (R215, R241). -/
theorem slot_rle_enters_fault {sl : Slot} {s u : State} (hs : s.rle.phase ≠ .fault)
    (hu : runRequest sl (applyControls sl s) = .next u) (ht : (takeOutput sl.take u).rle.phase = .fault) :
    s.rle.phase = .active ∧ s.rle.pend = true ∧ s.undrained = [] ∧
      sl.req = .offer (.rleSym .endOfInput) ∧ sl.rst = false ∧ sl.rleStart = false := by
  have hc : (applyControls sl s).rle.phase ≠ .fault := by
    rcases applyControls_rle_cases sl s with e | e <;> rw [e]
    · exact hs
    · decide
  have huf : u.rle.phase = .fault := by
    rcases takeOutput_rle_cases sl.take u with e | e <;> rw [e] at ht
    · exact ht
    · cases ht
  rcases runRequest_rle hu with ⟨hrle, -⟩ | ⟨w, i, hreq, hrst, hstart, hp, hdec, he⟩
  · exact absurd (hrle ▸ huf) hc
  · obtain ⟨rfl, ha, hund, hpend⟩ := exec_rle_enters_fault hp he hc huf
    obtain ⟨hrle, hundrained, -⟩ := applyControls_rle (s := s) hrst hstart
    rw [hrle] at ha hpend
    rw [hundrained] at hund
    exact ⟨ha, hpend, hund, word_of_decode_endPend hdec ▸ hreq, hrst, hstart⟩

/-- A slot takes HDR into FAULT only by an accepted `END` (R215, R241). -/
theorem slot_hdr_enters_fault {sl : Slot} {s u : State} (hs : s.hdr.phase ≠ .fault)
    (hu : runRequest sl (applyControls sl s) = .next u) (ht : (takeOutput sl.take u).hdr.phase = .fault) :
    s.hdr.phase = .active ∧ sl.req = .offer (.hdrSym .endOfInput) ∧ sl.rst = false ∧ sl.hdrStart = false := by
  rw [takeOutput_hdr] at ht
  have hc : (applyControls sl s).hdr.phase ≠ .fault := by
    rcases applyControls_hdr_cases sl s with e | e <;> rw [e]
    · exact hs
    · decide
  rcases runRequest_hdr hu with hhdr | ⟨w, i, hreq, hrst, hstart, hp, hdec, he⟩
  · exact absurd (hhdr ▸ ht) hc
  · obtain ⟨rfl, ha⟩ := exec_hdr_enters_fault hp he hc ht
    rw [applyControls_hdr hrst hstart] at ha
    exact ⟨ha, word_of_decode_hdrEnd hdec ▸ hreq, hrst, hstart⟩

/-! ## Field reads -/

/-- A result read off the header's bytes is there, or stops on a byte that holds no value (R40, I1). -/
def ReadsOrMissing {α : Type} (m : Memory) (o : Host.Outcome α Fault Refusal) : Prop :=
  (∃ v, o = .next v) ∨ ∃ a, a < 128 ∧ Memory.get m a = none ∧ o = .fault (.unwrittenHeaderByte a)

theorem readsOrMissing_next {α : Type} (m : Memory) (v : α) : ReadsOrMissing m (.next v) := .inl ⟨v, rfl⟩

theorem ReadsOrMissing.andThen {α β : Type} {m : Memory} {o : Host.Outcome α Fault Refusal}
    {f : α → Host.Outcome β Fault Refusal} (ho : ReadsOrMissing m o) (hf : ∀ v, ReadsOrMissing m (f v)) :
    ReadsOrMissing m (andThen o f) := by
  rcases ho with ⟨v, rfl⟩ | ⟨a, ha, hget, rfl⟩
  · exact hf v
  · exact .inr ⟨a, ha, hget, rfl⟩

theorem memRead1_readsOrMissing {m : Memory} {a : Nat} (ha : a < 128) : ReadsOrMissing m (memRead1 m a) := by
  cases hget : Memory.get m a with
  | some v => exact .inl ⟨v, memRead1_of_get ha hget⟩
  | none => exact .inr ⟨a, ha, hget, by rw [memRead1, if_pos (by rw [hdrLen_eq]; omega), hget]⟩

theorem memRead2_readsOrMissing {m : Memory} {a : Nat} (ha : a + 1 < 128) : ReadsOrMissing m (memRead2 m a) := by
  rw [memRead2, if_pos (by rw [hdrLen_eq]; omega)]
  exact (memRead1_readsOrMissing (by omega)).andThen fun lo =>
    (memRead1_readsOrMissing ha).andThen fun hi => readsOrMissing_next m _

theorem memReadBlock_readsOrMissing {m : Memory} {a k : Nat} (ha : a + k ≤ 128) :
    ReadsOrMissing m (memReadBlock m a k) := by
  induction k generalizing a with
  | zero => exact readsOrMissing_next m []
  | succ k ih =>
    exact (memRead1_readsOrMissing (by omega)).andThen fun v =>
      (ih (by omega)).andThen fun vs => readsOrMissing_next m _

theorem whenHdrValid_of_done {e : State → Host.Outcome State Fault Refusal} {s : State} (h : s.hdr.phase = .done) :
    whenHdrValid e s = e s := by
  simp [whenHdrValid, h]

theorem whenHdrValid_of_not_done {e : State → Host.Outcome State Fault Refusal} {s : State}
    (h : s.hdr.phase ≠ .done) : whenHdrValid e s = .fault .fieldNotValid := by
  simp [whenHdrValid, h]

/-- Every field read is a value read off the header's bytes, gated by `hdr_valid`, and logged. -/
theorem exec_field_readsOrMissing {i : Instr} {s : State} (hd : s.hdr.phase = .done) (hp : i.port = .field) :
    ReadsOrMissing s.hdr.buf (exec i s) := by
  rcases exec_field_form hp with ⟨o, ho, e⟩ | ⟨o, ho, e⟩ | ⟨o, k, ho, e⟩ <;> rw [e]
  · rw [readU8, whenHdrValid_of_done hd]
    exact (memRead1_readsOrMissing ho).andThen fun v => readsOrMissing_next _ _
  · rw [readU16, whenHdrValid_of_done hd]
    exact (memRead2_readsOrMissing ho).andThen fun v => readsOrMissing_next _ _
  · rw [readBlock, whenHdrValid_of_done hd]
    exact (memReadBlock_readsOrMissing ho).andThen fun v => readsOrMissing_next _ _

/-- In DONE every byte of the header holds a value (R25). -/
theorem Hdr.Inv.get_ne_none {h : Hdr} (hi : h.Inv) (hd : h.phase = .done) {a : Nat} (ha : a < 128) :
    Memory.get h.buf a ≠ none := by
  obtain ⟨-, hdone, -, -, hbuf⟩ := hi
  have hmem : a ∈ h.buf.map (fun c => c.1) := by
    rw [hbuf, hdone.1 hd]
    exact List.mem_range.2 ha
  obtain ⟨v, hv⟩ := get_isSome_iff.2 hmem
  simp [hv]

/-! ## The status space -/

theorem statusWord_hdrPhase (s : State) : (statusWord s).extractLsb' 0 2 = hdrPhaseCode s.hdr.phase :=
  extract_append_low _ _

theorem statusWord_above_hdrPhase (s : State) (k n : Nat) : (statusWord s).extractLsb' (k + 2) n =
    (0#7 ++ s.hdr.cur ++ errCode s.rle.err ++ errCode s.hdr.err ++ s.rle.cnt ++ BitVec.ofBool s.rle.pend
      ++ rlePhaseCode s.rle.phase).extractLsb' k n :=
  extract_append_high _ _ k n

theorem statusWord_rlePhase (s : State) : (statusWord s).extractLsb' 2 2 = rlePhaseCode s.rle.phase :=
  (statusWord_above_hdrPhase s 0 2).trans (extract_append_low _ _)

theorem statusWord_above_rlePhase (s : State) (k n : Nat) : (statusWord s).extractLsb' (k + 4) n =
    (0#7 ++ s.hdr.cur ++ errCode s.rle.err ++ errCode s.hdr.err ++ s.rle.cnt
      ++ BitVec.ofBool s.rle.pend).extractLsb' k n :=
  (statusWord_above_hdrPhase s (k + 2) n).trans (extract_append_high _ _ k n)

theorem statusWord_pend (s : State) : (statusWord s).extractLsb' 4 1 = BitVec.ofBool s.rle.pend :=
  (statusWord_above_rlePhase s 0 1).trans (extract_append_low _ _)

theorem statusWord_above_pend (s : State) (k n : Nat) : (statusWord s).extractLsb' (k + 5) n =
    (0#7 ++ s.hdr.cur ++ errCode s.rle.err ++ errCode s.hdr.err ++ s.rle.cnt).extractLsb' k n :=
  (statusWord_above_rlePhase s (k + 1) n).trans (extract_append_high _ _ k n)

theorem statusWord_cnt (s : State) : (statusWord s).extractLsb' 5 6 = s.rle.cnt :=
  (statusWord_above_pend s 0 6).trans (extract_append_low _ _)

theorem statusWord_above_cnt (s : State) (k n : Nat) : (statusWord s).extractLsb' (k + 11) n =
    (0#7 ++ s.hdr.cur ++ errCode s.rle.err ++ errCode s.hdr.err).extractLsb' k n :=
  (statusWord_above_pend s (k + 6) n).trans (extract_append_high _ _ k n)

theorem statusWord_hdrErr (s : State) : (statusWord s).extractLsb' 11 3 = errCode s.hdr.err :=
  (statusWord_above_cnt s 0 3).trans (extract_append_low _ _)

theorem statusWord_above_hdrErr (s : State) (k n : Nat) : (statusWord s).extractLsb' (k + 14) n =
    (0#7 ++ s.hdr.cur ++ errCode s.rle.err).extractLsb' k n :=
  (statusWord_above_cnt s (k + 3) n).trans (extract_append_high _ _ k n)

theorem statusWord_rleErr (s : State) : (statusWord s).extractLsb' 14 3 = errCode s.rle.err :=
  (statusWord_above_hdrErr s 0 3).trans (extract_append_low _ _)

theorem statusWord_above_rleErr (s : State) (k n : Nat) : (statusWord s).extractLsb' (k + 17) n =
    (0#7 ++ s.hdr.cur).extractLsb' k n :=
  (statusWord_above_hdrErr s (k + 3) n).trans (extract_append_high _ _ k n)

theorem statusWord_cur (s : State) : (statusWord s).extractLsb' 17 8 = s.hdr.cur :=
  (statusWord_above_rleErr s 0 8).trans (extract_append_low _ _)

theorem statusWord_top (s : State) : (statusWord s).extractLsb' 25 7 = 0#7 :=
  (statusWord_above_rleErr s 8 7).trans ((extract_append_high _ _ 0 7).trans (by decide))

/-- HDR's legal error codes (R24). -/
theorem Hdr.Inv.errCode_cases {h : Hdr} (hi : h.Inv) : errCode h.err = 0#3 ∨ errCode h.err = 1#3 := by
  obtain ⟨-, -, -, herr, -⟩ := hi
  rw [herr]
  split
  · exact .inr rfl
  · exact .inl rfl

/-- RLE's legal error codes (R31). -/
theorem Rle.Inv.errCode_cases {r : Rle} (hi : r.Inv) : errCode r.err = 0#3 ∨ errCode r.err = 2#3 := by
  obtain ⟨-, -, -, herr⟩ := hi
  rw [herr]
  split
  · exact .inr rfl
  · exact .inl rfl

/-- The cursor never passes the buffer's end (R23, R25). -/
theorem Hdr.Inv.cur_le {h : Hdr} (hi : h.Inv) : h.cur.toNat ≤ 128 := by
  obtain ⟨hactive, hdone, hfault, -, -⟩ := hi
  cases hp : h.phase with
  | active => exact (hactive hp).le
  | done => exact (hdone.1 hp).le
  | fault => exact (hfault hp).le

/-! ## A slot with no control -/

theorem step_of_no_control {s : State} {rest : List Slot} {r : Request} {k : Nat} (hr : s.rstSeen = true)
    (hinbox : s.inbox = { req := r, take := k } :: rest) :
    step s = andThen (runRequest { req := r, take := k } { s with inbox := rest }) fun t => .next (takeOutput k t) := by
  rw [step_of_slot hinbox, stepSlot_eq (s := { s with inbox := rest }) (.inl hr), applyControls_none _ rfl rfl rfl]

/-- A read in a slot of its own logs its value and changes nothing of the block (R39, R58). -/
theorem step_of_read {s : State} {rest : List Slot} {r : Request} {v : ReadValue} (hr : s.rstSeen = true)
    (hwait : s.startWait = true → s.undrained ≠ []) (hinbox : s.inbox = { req := r } :: rest)
    (hread : runRequest { req := r } { s with inbox := rest } = .next (logRead v { s with inbox := rest })) :
    step s = .next { s with inbox := rest, reads := s.reads ++ [v] } := by
  rw [step_of_no_control hr hinbox, hread, andThen_next]
  exact congrArg Host.Outcome.next (takeOutput_none (logRead v { s with inbox := rest }) hwait)

/-! ## The obligations -/

/-- Settles O27: a read stops only on a byte with no value, and in DONE every byte has one. -/
theorem everyFieldReadCompletesInDone : Obligations.EveryFieldReadCompletesInDone := by
  intro s i hinv hd hp
  rcases exec_field_readsOrMissing hd hp with ⟨t, ht⟩ | ⟨a, ha, hget, -⟩
  · obtain ⟨-, v, rfl⟩ := exec_field_next hp ht
    exact ⟨v, ht⟩
  · exact absurd hget (hinv.get_ne_none hd ha)

/-- Settles O29: each byte of a field is there or is the one the read stops on. -/
theorem fieldReadStopsOnlyOnMissingByte : Obligations.FieldReadStopsOnlyOnMissingByte := by
  intro s i hd hp
  refine (exec_field_readsOrMissing hd hp).imp_left fun ⟨t, ht⟩ => ?_
  obtain ⟨-, v, rfl⟩ := exec_field_next hp ht
  exact ⟨v, ht⟩

/-- Settles O49: only an accepted RLE word appends to the stream, and the sink's transfer moves along it; with `rst`
nothing is left to transfer. -/
theorem outputStreamOnlyGrows : Obligations.OutputStreamOnlyGrows := by
  intro s t sl hhead h
  obtain ⟨rest, u, -, hu, rfl⟩ := step_next_of_head hhead h
  obtain ⟨hsink, -⟩ := applyControls_host sl { s with inbox := rest }
  refine ⟨fun hrst => ?_, fun hrst => ?_⟩
  · have hundrained := applyControls_undrained { s with inbox := rest } hrst
    obtain ⟨bs, hout, hlen, hnone⟩ := runRequest_outputStream hu
    refine ⟨bs, ?_, hlen, hundrained ▸ hnone⟩
    rw [takeOutput_outputStream, hout, outputStream, hsink, hundrained]
    rfl
  · rcases runRequest_rle hu with ⟨-, hund⟩ | ⟨w, i, -, hnot, -⟩
    · rw [takeOutput_sink, hund, runRequest_sink hu, hsink, applyControls_of_rst _ hrst]
      simp
    · simp [hrst] at hnot

/-- Settles O50: the controls and the sink's transfer put a unit at most into its reset state, and among the operations
`END` alone enters FAULT. -/
theorem onlyEndRaisesAFault : Obligations.OnlyEndRaisesAFault := by
  intro s t h
  rcases step_next h with ⟨-, -, rfl⟩ | ⟨sl, rest, hinbox, -, u, hu, rfl⟩
  · exact ⟨fun hs ht => absurd ht hs, fun hs ht => absurd ht hs⟩
  have hhead : s.inbox.head? = some sl := by rw [hinbox, List.head?_cons]
  refine ⟨fun hs ht => ?_, fun hs ht => ?_⟩
  · obtain ⟨ha, hpend, hund, hreq, hrst, hstart⟩ := slot_rle_enters_fault (s := { s with inbox := rest }) hs hu ht
    exact ⟨ha, hpend, (rleInReady_iff s).2 ⟨ha, hund⟩, sl, hhead, hreq, hrst, hstart⟩
  · obtain ⟨ha, hreq, hrst, hstart⟩ := slot_hdr_enters_fault (s := { s with inbox := rest }) hs hu ht
    exact ⟨ha, (hdrInReady_iff s).2 ha, sl, hhead, hreq, hrst, hstart⟩

/-- Settles O51, by the frame of each port's operations. -/
theorem operationsChangeTheirOwnUnitAlone : Obligations.OperationsChangeTheirOwnUnitAlone :=
  fun _ _ _ h => ⟨(exec_rle_frame · h), (exec_hdr_frame · h), (exec_field_frame · h)⟩

/-- Settles O52: each operation replaces what the other ignores, so both orders make both replacements. -/
theorem unitsCommute : Obligations.UnitsCommute := by
  intro i j s t u hi hj ht hu
  have hjt := (exec_rle_ignores_withHdr hj t.hdr t.reads).next hu
  have hiu := (exec_ignores_withRle hi u.rle u.undrained).next ht
  have htframe : t = s.withHdr t.hdr t.reads := exec_frame_of_port_ne_rle hi ht
  have huframe : u = s.withRle u.rle u.undrained := exec_rle_frame hj hu
  rw [← htframe] at hjt
  rw [← huframe] at hiu
  have hsame : u.withHdr t.hdr t.reads = t.withRle u.rle u.undrained := by
    rw [huframe, htframe]
    rfl
  exact ⟨_, hjt, hsame ▸ hiu⟩

/-- Settles O53: STATUS is read field by field off its concatenation. -/
theorem statusFieldsAreWhereTheTablePutsThem : Obligations.StatusFieldsAreWhereTheTablePutsThem := by
  refine ⟨by decide, fun s => ⟨?_, ?_, ?_, statusWord_cnt s, ?_, ?_, statusWord_cur s, statusWord_top s, ?_⟩⟩
  · rw [statusWord_hdrPhase]
    rfl
  · rw [statusWord_rlePhase]
    rfl
  · rw [statusWord_pend]
    cases s.rle.pend <;> rfl
  · rw [statusWord_hdrErr]
    rfl
  · rw [statusWord_rleErr]
    rfl
  · rintro ⟨-, hhdr, hrle, -, -⟩
    rw [statusWord_hdrErr, statusWord_rleErr, statusWord_cur]
    exact ⟨hhdr.errCode_cases, hrle.errCode_cases, hhdr.cur_le⟩

/-- Settles O15: RLE is not ready while output is undrained. -/
theorem drainingRleAcceptsNothing : Obligations.DrainingRleAcceptsNothing := by
  intro s i hu hp
  obtain ⟨p, e, -, hform⟩ := exec_rle_form hp
  have hready := rleInReady_of_undrained hu
  exact ⟨hready, (hform s).trans (whenRleAccepts_notReady hready)⟩

/-- Settles O20: a capture writes inside the space. -/
theorem captureKeepsMemoryForm : Obligations.CaptureKeepsMemoryForm := by
  intro s t b hwf h
  rcases exec_hdr_next rfl h with ⟨-, rfl⟩ | ⟨-, ⟨b', -, hc, rfl⟩ | ⟨hi, -⟩⟩
  · exact hwf
  · exact set_wf b' hwf hc
  · cases hi

/-- Settles O21: the write at the cursor is outside the space. -/
theorem captureBeyondBufferIsRefused : Obligations.CaptureBeyondBufferIsRefused := by
  intro s b ha hc
  have hwrite : memWrite s.hdr.buf s.hdr.cur.toNat b = .refused (.memWriteOutOfRange s.hdr.cur.toNat) :=
    if_neg (Nat.not_lt.2 hc)
  show whenHdrAccepts (captureEffect b) s = _
  rw [whenHdrAccepts, if_pos ((hdrInReady_iff s).2 ha), captureEffect, hwrite, andThen_refused]

/-- Settles O28: every form of field read is gated by `hdr_valid`. -/
theorem fieldReadBeforeDoneFaults : Obligations.FieldReadBeforeDoneFaults := by
  intro s i hd hp
  rcases exec_field_form hp with ⟨o, -, e⟩ | ⟨o, -, e⟩ | ⟨o, k, -, e⟩ <;> rw [e]
  · exact whenHdrValid_of_not_done hd
  · exact whenHdrValid_of_not_done hd
  · exact whenHdrValid_of_not_done hd

/-- Settles O48: with no control and no request the step is the sink's transfer. -/
theorem sinkTakesOldestBytesInOrder : Obligations.SinkTakesOldestBytesInOrder := by
  intro s k rest hr hwait hinbox
  rw [step_of_no_control hr hinbox]
  exact congrArg Host.Outcome.next (takeOutput_noWait k hwait)

/-- Settles O54: the register's number says which read the step is. -/
theorem statusReadsHaveNoSideEffect : Obligations.StatusReadsHaveNoSideEffect := by
  intro s rest n hr hwait hinbox
  refine ⟨?_, ?_, fun hn => ?_⟩
  · rintro rfl
    exact step_of_read hr hwait hinbox rfl
  · rintro rfl
    exact step_of_read hr hwait hinbox rfl
  · obtain ⟨m, rfl⟩ := Nat.exists_eq_add_of_le' hn
    rw [step_of_no_control hr hinbox]
    rfl

/-- Settles O55: the read logs `hdr_valid`, which is DONE. -/
theorem hdrValidReadIsDone : Obligations.HdrValidReadIsDone :=
  fun _ _ hr hwait hinbox => step_of_read hr hwait hinbox rfl

end Sys2Proof.Machine

/-! # Proofs: memory

A symbol put on a port that is not ready stays with the host (R58, R102, R249). -/

namespace Sys2Proof.Machine

/-- A word on a port that is not ready goes to the host's held symbols and is not run. -/
theorem runRequest_of_notReady {sl : Slot} {w : PortWord} {s : State} (hreq : sl.req = .offer w)
    (hready : portReady w s = false) : runRequest sl s = .next (holdWord w s) := by
  simp [runRequest, hreq, hready]

/-- Settles O47: the slot has no control, its word is held, and the sink takes nothing. A field output is always
ready, so the premise on the port is not needed. -/
theorem unacceptedSymbolStaysWithHost : Obligations.UnacceptedSymbolStaysWithHost := by
  intro s w rest hr hwait _ hready hinbox
  rw [step_of_no_control hr hinbox, runRequest_of_notReady (s := { s with inbox := rest }) rfl hready, andThen_next]
  exact congrArg Host.Outcome.next (takeOutput_none (holdWord w { s with inbox := rest }) hwait)

end Sys2Proof.Machine

/-! # Proofs: encoding

A stream byte is classed by the number it is (R72, R141), so the decoder, the encoder and the operands' checks are read
as facts about that number; the header's fields are read off their one table (R83, R86). After them a RUN taken whole
(R73, R143, R144), the run-length decoding of whole runs (R77, R81, R149), and a table word as a step. -/

namespace Sys2Proof.Machine

/-! ## A byte of the stream as a number -/

/-- The marker test looks at the top two bits alone. -/
theorem isMarker_append (x : BitVec 2) (n : BitVec 6) : isMarker (x ++ n) = (x == 3#2) := by
  have hmask : Config.markerMask = BitVec.allOnes 2 ++ 0#6 := rfl
  have htop : ∀ y : BitVec 2, (y ++ 0#6 == 0xC0#8) = (y == 3#2) := by decide
  rw [isMarker, hmask, BitVec.and_append, BitVec.and_allOnes, BitVec.and_zero]
  exact htop x

/-- R141: the run markers are the bytes from 0xC0. -/
theorem isMarker_iff (b : Byte) : isMarker b = true ↔ 0xC0 ≤ b.toNat := by
  have hsplit : b.extractLsb' 6 2 ++ b.extractLsb' 0 6 = b :=
    (BitVec.extractLsb'_append_extractLsb'_eq_extractLsb' rfl).trans (BitVec.extractLsb'_eq_self)
  have htop : (b.extractLsb' 6 2).toNat = b.toNat / 64 % 4 := by
    rw [BitVec.extractLsb'_toNat, Nat.shiftRight_eq_div_pow]
  rw [← hsplit, isMarker_append, beq_iff_eq, ← BitVec.toNat_inj, hsplit, htop, BitVec.toNat_ofNat]
  omega

/-- R75, R143: the count of a marker is its low six bits. -/
theorem markerCount_toNat (b : Byte) : (markerCount b).toNat = b.toNat % 64 := by
  have hmask : (Config.countMask).toNat = 2 ^ 6 - 1 := rfl
  rw [markerCount, BitVec.toNat_setWidth, BitVec.toNat_and, hmask, Nat.and_two_pow_sub_one_eq_mod, Nat.mod_mod]

/-- R73: the marker byte of a count is that count above 0xC0. -/
theorem markerByte_toNat (n : BitVec 6) : (markerByte n).toNat = 0xC0 + n.toNat := by
  rw [markerByte, BitVec.toNat_append, ← Nat.shiftLeft_add_eq_or_of_lt n.isLt]
  rfl

theorem isMarker_markerByte (n : BitVec 6) : isMarker (markerByte n) = true := by
  rw [isMarker_iff, markerByte_toNat]
  omega

theorem markerCount_markerByte (n : BitVec 6) : markerCount (markerByte n) = n := by
  rw [← BitVec.toNat_inj, markerCount_toNat, markerByte_toNat]
  omega

theorem markerByte_markerCount {b : Byte} (h : 0xC0 ≤ b.toNat) : markerByte (markerCount b) = b := by
  rw [← BitVec.toNat_inj, markerByte_toNat, markerCount_toNat]
  omega

theorem markerCount_eq_sub {b : Byte} (h : 0xC0 ≤ b.toNat) : markerCount b = BitVec.ofNat 6 (b.toNat - 0xC0) := by
  rw [← BitVec.toNat_inj, markerCount_toNat, BitVec.toNat_ofNat]
  omega

/-- R72: bit 7 of a byte is clear below 0x80. -/
theorem bit7_clear_iff (b : Byte) : (b.extractLsb' 7 1 == 0#1) = true ↔ b.toNat < 0x80 := by
  rw [beq_iff_eq, ← BitVec.toNat_inj, BitVec.extractLsb'_toNat, Nat.shiftRight_eq_div_pow, BitVec.toNat_ofNat]
  omega

/-- R72: the first `LIT` row holds the bytes below 0x80. -/
theorem litLow_wellFormed_iff (v : Byte) : (Instr.litLow v).wellFormed = true ↔ v.toNat < 0x80 := bit7_clear_iff v

/-- R72: the second `LIT` row holds the bytes from 0x80 to 0xBF. -/
theorem litHigh_wellFormed_iff (v : Byte) :
    (Instr.litHigh v).wellFormed = true ↔ 0x80 ≤ v.toNat ∧ v.toNat < 0xC0 := by
  rw [Instr.wellFormed, beq_iff_eq, ← BitVec.toNat_inj, BitVec.extractLsb'_toNat, Nat.shiftRight_eq_div_pow,
    BitVec.toNat_ofNat]
  omega

/-! ## The class of a byte on RLE's port -/

theorem isMarker_eq_false {b : Byte} (h : b.toNat < 0xC0) : isMarker b = false :=
  Bool.eq_false_iff.2 fun hm => Nat.not_le.2 h ((isMarker_iff b).1 hm)

theorem decodeRleByte_marker {b : Byte} (h : 0xC0 ≤ b.toNat) : decodeRleByte false b = .runMark (markerCount b) := by
  simp [decodeRleByte, (isMarker_iff b).2 h]

theorem decodeRleByte_low {b : Byte} (h : b.toNat < 0x80) : decodeRleByte false b = .litLow b := by
  rw [decodeRleByte, isMarker_eq_false (by omega), (bit7_clear_iff b).2 h]
  rfl

theorem decodeRleByte_high {b : Byte} (hlo : 0x80 ≤ b.toNat) (hhi : b.toNat < 0xC0) :
    decodeRleByte false b = .litHigh b := by
  have hbit : (b.extractLsb' 7 1 == 0#1) = false :=
    Bool.eq_false_iff.2 fun hb => Nat.not_lt.2 hlo ((bit7_clear_iff b).1 hb)
  rw [decodeRleByte, isMarker_eq_false hhi, hbit]
  rfl

/-- The three value ranges of R72 and R141. -/
theorem byte_range_cases (b : Byte) : b.toNat < 0x80 ∨ 0x80 ≤ b.toNat ∧ b.toNat < 0xC0 ∨ 0xC0 ≤ b.toNat := by
  omega

/-- A byte below 0xC0 is a literal of one of the two rows. -/
theorem decodeRleByte_literal {b : Byte} (h : b.toNat < 0xC0) :
    decodeRleByte false b = .litLow b ∨ decodeRleByte false b = .litHigh b :=
  (Nat.lt_or_ge b.toNat 0x80).imp decodeRleByte_low (decodeRleByte_high · h)

/-- A RUN item with no run pending is accepted on its marker, whatever its data byte. -/
theorem decodeRleItem_marker {m : Byte} (d : Byte) (h : 0xC0 ≤ m.toNat) :
    decodeRleItem false m d = .ok (.run (markerCount m) d) := by
  simp [decodeRleItem, (isMarker_iff m).2 h]

/-- What a RUN item that decodes must be (R73, R140). -/
theorem decodeRleItem_ok {p : Bool} {m d : Byte} {i : Instr} (h : decodeRleItem p m d = .ok i) :
    p = false ∧ 0xC0 ≤ m.toNat ∧ i = .run (markerCount m) d := by
  unfold decodeRleItem at h
  split at h
  · cases h
  · next hp =>
    split at h
    · next hm =>
      cases h
      exact ⟨Bool.eq_false_iff.2 hp, (isMarker_iff m).1 hm, rfl⟩
    · cases h

/-! ## The table of header fields -/

theorem decodeField_of_mem : ∀ row ∈ fieldRows, decodeField row.1 = .ok row.2 := by decide

theorem encode_of_mem_fieldRows : ∀ row ∈ fieldRows, encode row.2 = .fieldRead row.1 := by decide

/-- An operation on the field port is well-formed and fits both values of `rle_pend`. -/
theorem field_wellFormed_fits {i : Instr} (p : Bool) (hp : i.port = .field) :
    i.wellFormed = true ∧ i.fits p = true := by
  cases i with
  | litLow | litHigh | run | runMark | runData | endIdle | endPend | hdrCapture | hdrEnd => cases hp
  | _ => exact ⟨rfl, rfl⟩

/-- R86: an offset decodes to a field's operation where the table has that row, and nowhere else. -/
theorem decodeField_ok_iff {o : BitVec 7} {i : Instr} : decodeField o = .ok i ↔ (o, i) ∈ fieldRows := by
  refine ⟨fun h => ?_, decodeField_of_mem (o, i)⟩
  unfold decodeField at h
  split at h
  · next row hrow =>
    cases h
    have ho : row.1 = o := by simpa using List.find?_some hrow
    exact ho ▸ List.mem_of_find?_eq_some hrow
  · cases h

/-- The decoder's table has the offsets of R83's layout. -/
theorem headerLayout_offsets : headerLayout.map (fun row => row.1) = fieldRows.map (fun row => row.1.toNat) := rfl

/-! ## Decoding and encoding -/

theorem decode_encode_litLow {v : Byte} (h : (Instr.litLow v).wellFormed = true) :
    decode false (encode (.litLow v)) = .ok (.litLow v) :=
  congrArg Except.ok (decodeRleByte_low ((litLow_wellFormed_iff v).1 h))

theorem decode_encode_litHigh {v : Byte} (h : (Instr.litHigh v).wellFormed = true) :
    decode false (encode (.litHigh v)) = .ok (.litHigh v) :=
  have ⟨hlo, hhi⟩ := (litHigh_wellFormed_iff v).1 h
  congrArg Except.ok (decodeRleByte_high hlo hhi)

theorem decode_encode_runMark (n : BitVec 6) : decode false (encode (.runMark n)) = .ok (.runMark n) := by
  have hm := (isMarker_iff _).1 (isMarker_markerByte n)
  rw [encode, decode, decodeRleByte_marker hm, markerCount_markerByte]

theorem decode_encode_run (n : BitVec 6) (d : Byte) : decode false (encode (.run n d)) = .ok (.run n d) := by
  have hm := (isMarker_iff _).1 (isMarker_markerByte n)
  rw [encode, decode, decodeRleItem_marker d hm, markerCount_markerByte]

/-- Fitting a value of `rle_pend`, for an operation whose row names one. -/
theorem eq_of_fits {i : Instr} {p q : Bool} (hc : i.pendClass = some q) (h : i.fits p = true) : p = q := by
  simp only [Instr.fits, hc, beq_iff_eq] at h
  exact h.symm

/-- The operation of a byte encodes back to it, is well-formed and of the class of `rle_pend`: by the byte's range. -/
theorem decodeRleByte_spec (p : Bool) (b : Byte) :
    encode (decodeRleByte p b) = .rleSym (.byte b) ∧ (decodeRleByte p b).wellFormed = true ∧
      (decodeRleByte p b).fits p = true := by
  cases p with
  | true => exact ⟨rfl, rfl, rfl⟩
  | false =>
    rcases byte_range_cases b with h | ⟨hlo, hhi⟩ | h
    · rw [decodeRleByte_low h]
      exact ⟨rfl, (litLow_wellFormed_iff b).2 h, rfl⟩
    · rw [decodeRleByte_high hlo hhi]
      exact ⟨rfl, (litHigh_wellFormed_iff b).2 ⟨hlo, hhi⟩, rfl⟩
    · rw [decodeRleByte_marker h, encode, markerByte_markerCount h]
      exact ⟨rfl, rfl, rfl⟩

/-! ## Two acceptances in a row -/

theorem whenRleAccepts_wrongClass {p : Bool} {e : State → State} {s : State} (hr : rleInReady s = true)
    (hp : s.rle.pend ≠ p) : whenRleAccepts p e s = .refused .wrongClass := by
  rw [whenRleAccepts, if_pos hr, if_neg (by simpa using hp)]

/-- An acceptance that leaves the port ready and `rle_pend` at the value the next one asks for is, with that next one, a
single acceptance of both effects. -/
theorem whenRleAccepts_andThen {p q : Bool} {e f : State → State} {s : State}
    (hready : rleInReady (e s) = rleInReady s) (hpend : (e s).rle.pend = q) :
    andThen (whenRleAccepts p e s) (whenRleAccepts q f) = whenRleAccepts p (fun s => f (e s)) s := by
  cases hr : rleInReady s with
  | false => rw [whenRleAccepts_notReady hr, whenRleAccepts_notReady hr, andThen_next, whenRleAccepts_notReady hr]
  | true =>
    have hboth : ∀ {g : State → State}, s.rle.pend = p → whenRleAccepts p g s = .next (g s) :=
      fun hp => whenRleAccepts_next.2 (.inr ⟨hr, hp, rfl⟩)
    by_cases hp : s.rle.pend = p
    · rw [hboth hp, hboth hp, andThen_next]
      exact whenRleAccepts_next.2 (.inr ⟨hready.trans hr, hpend, rfl⟩)
    · rw [whenRleAccepts_wrongClass hr hp, whenRleAccepts_wrongClass hr hp, andThen_refused]

/-! ## Runs of a byte sequence -/

/-- R149: a whole run adds its copies to what is decoded, whatever its data byte. -/
theorem streamFrom_run (n : BitVec 6) (d : Byte) (rest out : List Byte) :
    streamFrom (markerByte n :: d :: rest) out = streamFrom rest (out ++ List.replicate n.toNat d) := by
  rw [streamFrom, if_pos (isMarker_markerByte n), runBytes, markerCount_markerByte]

/-- The full runs of R81 add 63 copies each. -/
theorem streamFrom_fullRuns (q : Nat) (d : Byte) (rest out : List Byte) :
    streamFrom (fullRuns q d ++ rest) out = streamFrom rest (out ++ List.replicate (63 * q) d) := by
  induction q generalizing out with
  | zero => simp [fullRuns]
  | succ q ih =>
    have hcopies : List.replicate 63 d ++ List.replicate (63 * q) d = List.replicate (63 * (q + 1)) d := by
      rw [List.replicate_append_replicate, Nat.mul_succ, Nat.add_comm]
    rw [fullRuns, List.cons_append, List.cons_append, streamFrom_run, ih, List.append_assoc, ← hcopies]
    rfl

/-- What `fill` puts after its full runs adds the remainder, zero included (R81). -/
theorem streamFrom_remainder {r : Nat} (hr : r < 64) (d : Byte) (out : List Byte) :
    streamFrom (if r = 0 then [] else [markerByte (BitVec.ofNat 6 r), d]) out = .ok (out ++ List.replicate r d) := by
  split
  · next h => simp [streamFrom, h]
  · rw [streamFrom_run, BitVec.toNat_ofNat, Nat.mod_eq_of_lt hr, streamFrom]

/-! ## A table word -/

/-- A slot with no control blocks no word (R241). -/
theorem blockedByControl_none {sl : Slot} (w : PortWord) (h1 : sl.rst = false) (h2 : sl.hdrStart = false)
    (h3 : sl.rleStart = false) : blockedByControl sl w = false := by
  unfold blockedByControl
  cases w.port <;> simp [h1, h2, h3]

theorem decodeTableWord_eq_some {nbits w : Nat} {i : Instr} (h : decodeTableWord nbits w = some i) :
    decode false (tableWord nbits w) = .ok i := by
  unfold decodeTableWord at h
  split at h
  · next hj =>
    cases h
    exact hj
  · cases h

/-! ## The obligations -/

/-- Settles O1: a row of R140 names its value of `rle_pend`, and with it the operand's range or count comes back from
the byte; a word of another port decodes by itself. -/
theorem decodeOfEncode : Obligations.DecodeOfEncode := by
  intro i p hwf hfits
  cases i with
  | litLow v =>
    cases eq_of_fits rfl hfits
    exact decode_encode_litLow hwf
  | litHigh v =>
    cases eq_of_fits rfl hfits
    exact decode_encode_litHigh hwf
  | run n d =>
    cases eq_of_fits rfl hfits
    exact decode_encode_run n d
  | runMark n =>
    cases eq_of_fits rfl hfits
    exact decode_encode_runMark n
  | runData d =>
    cases eq_of_fits rfl hfits
    rfl
  | endIdle =>
    cases eq_of_fits rfl hfits
    rfl
  | endPend =>
    cases eq_of_fits rfl hfits
    rfl
  | _ => rfl

/-- Settles O2, by the form of the word. -/
theorem encodeOfDecode : Obligations.EncodeOfDecode := by
  intro p w i h
  match w with
  | .rleSym (.byte b) =>
    cases h
    exact decodeRleByte_spec p b
  | .rleSym .endOfInput => cases p <;> cases h <;> exact ⟨rfl, rfl, rfl⟩
  | .rleItem m d =>
    obtain ⟨rfl, hm, rfl⟩ := decodeRleItem_ok h
    rw [encode, markerByte_markerCount hm]
    exact ⟨rfl, rfl, rfl⟩
  | .hdrSym (.byte b) =>
    cases h
    exact ⟨rfl, rfl, rfl⟩
  | .hdrSym .endOfInput =>
    cases h
    exact ⟨rfl, rfl, rfl⟩
  | .fieldRead o =>
    exact ⟨encode_of_mem_fieldRows _ (decodeField_ok_iff.1 h), field_wellFormed_fits p (decode_port h)⟩

/-- Settles O11: the marker leaves the port as ready as it was and a run pending. -/
theorem runItemIsMarkerThenData : Obligations.RunItemIsMarkerThenData :=
  fun s n d => (whenRleAccepts_andThen (e := markerEffect n) (f := dataEffect d) (s := s) rfl rfl).symm

/-- Settles O35: ⌊N/63⌋ times 63 copies and then the remainder. -/
theorem fillExpandsToCopies : Obligations.FillExpandsToCopies := by
  intro n d hd
  refine ⟨_, if_pos hd, ?_⟩
  have hrem : n % 63 < 64 := by omega
  rw [decodeStream, streamFrom_fullRuns, countMax_eq, streamFrom_remainder hrem, List.nil_append,
    List.replicate_append_replicate, Nat.div_add_mod]

/-- Settles O3, by the range of the byte. -/
theorem rleSymbolClasses : Obligations.RleSymbolClasses := fun _ =>
  ⟨rfl, fun h => congrArg Except.ok (decodeRleByte_low h),
    fun hlo hhi => congrArg Except.ok (decodeRleByte_high hlo hhi),
    fun h => congrArg Except.ok ((decodeRleByte_marker h).trans (congrArg Instr.runMark (markerCount_eq_sub h))),
    rfl, rfl⟩

/-- Settles O4: the offsets that decode are those of the decoder's table, which are the layout's. -/
theorem fieldReadsAreTheLayoutOffsets : Obligations.FieldReadsAreTheLayoutOffsets := by
  intro p o
  have hdecode : ∀ i, decode p (.fieldRead o) = .ok i ↔ (o, i) ∈ fieldRows := fun i => decodeField_ok_iff
  simp only [hdecode, headerLayout_offsets, List.mem_map, BitVec.toNat_inj]
  exact ⟨fun ⟨i, hi⟩ => ⟨(o, i), hi, rfl⟩, fun ⟨row, hrow, ho⟩ => ⟨row.2, ho ▸ hrow⟩⟩

/-- Settles O5: the item is chosen by the marker test on its first byte, with or without a byte after it. -/
theorem firstByteTellsItemLength : Obligations.FirstByteTellsItemLength := by
  intro b d rest
  refine ⟨fun h => ?_, fun h => ⟨decodeRleByte false b, decodeRleByte_literal h, ?_⟩⟩
  · rw [decodeItem, if_pos ((isMarker_iff b).2 h), markerCount_eq_sub h]
  · have hm := isMarker_eq_false h
    cases rest with
    | nil => simp [decodeItem, hm]
    | cons c rest => simp [decodeItem, hm]

/-- Settles O6: each word is the encoding of a well-formed operation. -/
theorem sampleWordsDecode : Obligations.SampleWordsDecode :=
  ⟨decodeOfEncode (.litHigh 0xBF#8) false rfl rfl, decodeOfEncode (.litLow 0x7F#8) false rfl rfl,
    decodeOfEncode (.runMark 3#6) false rfl rfl, decodeOfEncode (.run 3#6 0x41#8) false rfl rfl,
    decodeOfEncode .hdrBpl false rfl rfl, decodeOfEncode (.runData 0xC5#8) true rfl rfl,
    decodeOfEncode .hdrEnd false rfl rfl⟩

/-- Settles O10: both effects in one acceptance, the position counted on twice. -/
theorem runItemResult : Obligations.RunItemResult := by
  intro s n d ha hu hp
  have hpos : wrapPos s.posW (wrapPos s.posW (s.rle.pos + 1) + 1) = (s.rle.pos + 2) % 2 ^ s.posW :=
    wrapPos_add s.posW (s.rle.pos + 1) 1
  have hout : s.undrained ++ List.replicate n.toNat d = List.replicate n.toNat d := by rw [hu, List.nil_append]
  refine (whenRleAccepts_ready (e := fun s => dataEffect d (markerEffect n s)) ha hu hp).trans ?_
  rw [← hpos, ← hout]
  rfl

/-- Settles O34: 0xC0 is the marker of count 0, which adds no copy. -/
theorem countZeroRunEmitsNothing : Obligations.CountZeroRunEmitsNothing :=
  fun d rest => streamFrom_run 0#6 d rest []

/-- Settles O37: the slot has no control, and its word is accepted with no run pending. -/
theorem fetchWordIsRunNext : Obligations.FetchWordIsRunNext := by
  intro s nbits w i hr hp hready hi
  have hdecode : decode s.rle.pend (tableWord nbits w) = .ok i := hp ▸ decodeTableWord_eq_some hi
  rw [step_of_no_control (s := s.withFetchWord nbits w) hr rfl]
  exact congrArg (andThen · _) (runRequest_of_accepted rfl (blockedByControl_none _ rfl rfl rfl) hready hdecode)

end Sys2Proof.Machine

/-! # Proofs: header parser

HDR's operations in ACTIVE and outside it (R101 to R104), the three forms of field read (R106 to R123), the header that
a captured buffer holds with its serialisation (R124), and a whole parse as slots (R127). -/

namespace Sys2Proof.Machine

/-! ## HDR's operations -/

theorem whenHdrAccepts_active {e : State → Host.Outcome State Fault Refusal} {s : State}
    (ha : s.hdr.phase = .active) : whenHdrAccepts e s = e s :=
  if_pos ((hdrInReady_iff s).2 ha)

theorem exec_hdrCapture_active {s : State} (b : Byte) (ha : s.hdr.phase = .active) (hc : s.hdr.cur.toNat < 128) :
    exec (.hdrCapture b) s = .next { s with hdr := capturedHdr b s.hdr } :=
  (whenHdrAccepts_active ha).trans (captureEffect_inside hc)

theorem exec_hdrEnd_active {s : State} (ha : s.hdr.phase = .active) :
    exec .hdrEnd s = .next (raise .truncatedInput s) :=
  whenHdrAccepts_active (e := fun s => .next (raise .truncatedInput s)) ha

/-- R102, R104: outside ACTIVE no HDR operation changes anything. -/
theorem exec_hdr_stopped {i : Instr} {s : State} (hp : i.port = .hdr) (hs : s.hdr.phase ≠ .active) :
    exec i s = .next s := by
  obtain ⟨e, hform⟩ := exec_hdr_form hp
  exact (hform s).trans (whenHdrAccepts_next.2 (.inl ⟨hs, rfl⟩))

/-- A slot with neither `rst` nor `hdr_start` leaves a stopped HDR as it is (R104, R126). -/
theorem slot_hdr_of_stopped {sl : Slot} {s u : State} (hs : s.hdr.phase ≠ .active) (hrst : sl.rst = false)
    (hstart : sl.hdrStart = false) (hu : runRequest sl (applyControls sl s) = .next u) : u.hdr = s.hdr := by
  have hcontrols : (applyControls sl s).hdr = s.hdr := applyControls_hdr hrst hstart
  rcases runRequest_hdr hu with hhdr | ⟨w, i, -, -, -, hp, -, he⟩
  · exact hhdr.trans hcontrols
  · rw [exec_hdr_stopped hp (hcontrols ▸ hs)] at he
    cases he
    exact hcontrols

/-! ## Field reads -/

/-- The `u16le` fields of R83 at their offsets. -/
def halfFieldRows : List (Nat × Instr) :=
  [(4, .hdrXmin), (6, .hdrYmin), (8, .hdrXmax), (10, .hdrYmax), (12, .hdrVdpi), (14, .hdrHdpi),
    (66, .hdrBpl), (68, .hdrPalinfo), (70, .hdrHscreen), (72, .hdrVscreen)]

theorem halfFieldRows_inside : ∀ row ∈ halfFieldRows, row.1 + 1 < 128 := by decide

/-- R110 to R115, R119 to R122: each of these operations is the read of two bytes at its offset. -/
theorem exec_of_mem_halfFieldRows (s : State) : ∀ row ∈ halfFieldRows, exec row.2 s = readU16 row.1 s := by
  simp only [halfFieldRows, List.forall_mem_cons]
  exact ⟨rfl, rfl, rfl, rfl, rfl, rfl, rfl, rfl, rfl, rfl, nofun⟩

/-- A block read with the block's length written as a number. -/
theorem readBlock_of_get_length {o k : Nat} {bs : List Byte} {s : State} (hd : s.hdr.phase = .done)
    (ho : o + k ≤ 128) (hlen : bs.length = k) (h : ∀ j, j < k → Memory.get s.hdr.buf (o + j) = bs[j]?) :
    readBlock o k s = .next (logRead (.block bs) s) := by
  subst hlen
  exact readBlock_of_get hd ho h

/-! ## A header's bytes -/

/-- The bytes at offsets `o` to `o + k - 1`. -/
def bytesFrom (f : Nat → Byte) (o k : Nat) : List Byte := (List.range' o k).map f

@[simp] theorem bytesFrom_length (f : Nat → Byte) (o k : Nat) : (bytesFrom f o k).length = k := by
  simp [bytesFrom]

/-- Two blocks where the second starts at the end of the first. -/
theorem bytesFrom_append (f : Nat → Byte) {o p j : Nat} (k : Nat) (h : o + j = p) :
    bytesFrom f o j ++ bytesFrom f p k = bytesFrom f o (j + k) := by
  rw [bytesFrom, bytesFrom, ← List.map_append, ← h, List.range'_append_1, bytesFrom]

theorem bytesFrom_getElem? (f : Nat → Byte) (o : Nat) {j k : Nat} (hj : j < k) :
    (bytesFrom f o k)[j]? = some (f (o + j)) := by
  simp [bytesFrom, hj]

/-- A list is its bytes by offset. -/
theorem bytesFrom_getD (bs : List Byte) : bytesFrom (fun k => bs.getD k 0) 0 bs.length = bs := by
  refine List.ext_getElem (bytesFrom_length _ _ _) fun k _ hk => ?_
  simp [bytesFrom, hk]

/-- The header whose byte at each offset is `f` of it (R83, R106 to R123). -/
def headerOf (f : Nat → Byte) : Header where
  marker := f 0
  version := f 1
  encoding := f 2
  bpp := f 3
  xmin := packHalf (f 4) (f 5)
  ymin := packHalf (f 6) (f 7)
  xmax := packHalf (f 8) (f 9)
  ymax := packHalf (f 10) (f 11)
  vdpi := packHalf (f 12) (f 13)
  hdpi := packHalf (f 14) (f 15)
  pal16 := bytesFrom f 16 48
  reserved := f 64
  nplanes := f 65
  bpl := packHalf (f 66) (f 67)
  palinfo := packHalf (f 68) (f 69)
  hscreen := packHalf (f 70) (f 71)
  vscreen := packHalf (f 72) (f 73)
  pad := bytesFrom f 74 54

/-- R124: a `u16le` value is written as the two bytes it was read from. -/
theorem halfBytes_packHalf (lo hi : Byte) : halfBytes (packHalf lo hi) = [lo, hi] := by
  have hlo : (hi ++ lo).setWidth 8 = lo := BitVec.setWidth_append_eq_right
  have hhi : ((hi ++ lo) >>> 8).setWidth 8 = hi := by
    rw [BitVec.setWidth_ushiftRight_eq_extractLsb]
    exact BitVec.extractLsb'_append_eq_left
  rw [halfBytes, packHalf, hlo, hhi]

theorem singleton_eq_bytesFrom (f : Nat → Byte) (o : Nat) : [f o] = bytesFrom f o 1 := rfl

theorem halfBytes_eq_bytesFrom (f : Nat → Byte) (o : Nat) :
    halfBytes (packHalf (f o) (f (o + 1))) = bytesFrom f o 2 := halfBytes_packHalf _ _

/-- R124: the fields of R83 are contiguous, so writing them in order writes the buffer. -/
theorem serialise_headerOf (f : Nat → Byte) : serialise (headerOf f) = bytesFrom f 0 128 := by
  simp only [serialise, headerOf, singleton_eq_bytesFrom f, halfBytes_eq_bytesFrom]
  simp only [bytesFrom_append, Nat.reduceAdd]

/-- Every offset of the header holds the byte `f` gives it. -/
def HoldsHeader (m : Memory) (f : Nat → Byte) : Prop := ∀ a, a < 128 → Memory.get m a = some (f a)

section
variable {s : State} {f : Nat → Byte} (h : HoldsHeader s.hdr.buf f)
include h

theorem HoldsHeader.fieldU8 {o : Nat} (ho : o < 128) : fieldU8 o s = .next (f o) :=
  memRead1_of_get ho (h o ho)

theorem HoldsHeader.fieldU16 {o : Nat} (ho : o + 1 < 128) : fieldU16 o s = .next (packHalf (f o) (f (o + 1))) :=
  memRead2_of_get ho (h o (by omega)) (h (o + 1) ho)

theorem HoldsHeader.fieldBlock {o k : Nat} (ho : o + k ≤ 128) : fieldBlock o k s = .next (bytesFrom f o k) := by
  have hget : ∀ j, j < k → Memory.get s.hdr.buf (o + j) = (bytesFrom f o k)[j]? := fun j hj => by
    rw [h _ (by omega), bytesFrom_getElem? f o hj]
  have hblock := memReadBlock_of_get (m := s.hdr.buf) (bs := bytesFrom f o k) (a := o)
  rw [bytesFrom_length] at hblock
  exact hblock ho hget

/-- Every field of a full buffer extracts, and together they are the header of its bytes. -/
theorem HoldsHeader.extractHeader : extractHeader s = .next (headerOf f) := by
  simp (disch := decide) only [Machine.extractHeader, h.fieldU8, h.fieldU16, h.fieldBlock, andThen_next]
  rfl

end

/-- R14: in DONE a full buffer is observed as its bytes with the header they make. -/
theorem observeHdr_of_holdsHeader {s : State} {f : Nat → Byte} (hd : s.hdr.phase = .done)
    (h : HoldsHeader s.hdr.buf f) : observeHdr s = .done (bytesFrom f 0 128) (headerOf f) := by
  have hbytes : memReadBlock s.hdr.buf 0 128 = .next (bytesFrom f 0 128) := h.fieldBlock (Nat.le_refl 128)
  simp only [observeHdr, hd, h.extractHeader, hdrLen_eq, hbytes]

/-! ## The bytes captured so far -/

/-- HDR, started from its reset state, has captured exactly these bytes (R101). -/
structure Hdr.Captured (h : Hdr) (bs : List Byte) : Prop where
  cur : h.cur.toNat = bs.length
  phase : h.phase = if bs.length = 128 then .done else .active
  buf : ∀ k, Memory.get h.buf k = bs[k]?

theorem hdrReset_captured : Hdr.reset.Captured [] := ⟨rfl, rfl, fun _ => rfl⟩

theorem Hdr.Captured.active {h : Hdr} {bs : List Byte} (hh : h.Captured bs) (hlen : bs.length < 128) :
    h.phase = .active := by
  rw [hh.phase, if_neg (by omega)]

/-- One more capture in ACTIVE (R101). -/
theorem Hdr.Captured.capture {h : Hdr} {bs : List Byte} (b : Byte) (hh : h.Captured bs) (hlen : bs.length < 128) :
    (capturedHdr b h).Captured (bs ++ [b]) := by
  have hcur : (capturedHdr b h).cur.toNat = (bs ++ [b]).length := by
    rw [capturedHdr_cur_toNat b (by rw [hh.cur]; exact hlen), hh.cur, List.length_append, List.length_singleton]
  refine ⟨hcur, by rw [capturedHdr_phase b (hh.active hlen), hcur], fun k => ?_⟩
  show Memory.get (Memory.set h.buf h.cur.toNat b) k = _
  rw [hh.cur]
  by_cases hk : k = bs.length
  · rw [hk, get_set_same, List.getElem?_concat_length]
  · rw [get_set_other _ _ hk, hh.buf]
    rcases Nat.lt_or_gt_of_ne hk with hlt | hgt
    · rw [List.getElem?_append_left hlt]
    · rw [List.getElem?_eq_none hgt.le, List.getElem?_eq_none (by simpa using hgt)]

theorem Hdr.Captured.holdsHeader {h : Hdr} {bs : List Byte} (hh : h.Captured bs) (hlen : bs.length = 128) :
    HoldsHeader h.buf fun k => bs.getD k 0 := by
  intro a ha
  rw [hh.buf]
  simp [hlen, ha]

/-! ## A whole parse -/

theorem feed_append (xs ys : List Slot) (s : State) : feed (xs ++ ys) s = andThen (feed xs s) (feed ys) := by
  induction xs generalizing s with
  | nil => rfl
  | cons sl xs ih =>
    rw [List.cons_append, feed, feed]
    cases stepSlot sl s with
    | next t => exact ih t
    | fault r => rfl
    | refused r => rfl

theorem feed_cons_of_next {sl : Slot} {rest : List Slot} {s t : State} (h : stepSlot sl s = .next t) :
    feed (sl :: rest) s = feed rest t := by
  rw [feed, h, andThen_next]

theorem stepSlot_hdrSlot {s : State} (x : Sym) (hr : s.rstSeen = true) :
    stepSlot (hdrSlot x) s = andThen (runRequest (hdrSlot x) s) fun t => .next (takeOutput 0 t) := by
  rw [stepSlot_eq (.inl hr), applyControls_none _ rfl rfl rfl]
  rfl

section
-- HDR's slots leave RLE alone where no start waits that could take effect (R243).

variable {s : State} (hr : s.rstSeen = true) (hwait : s.startWait = true → s.undrained ≠ [])
include hr hwait

/-- The symbol of a slot for HDR in ACTIVE is accepted and run as its operation (R100). -/
theorem stepSlot_hdrSlot_accepted {x : Sym} {i : Instr} {h : Hdr} (ha : s.hdr.phase = .active)
    (hdecode : decode s.rle.pend (.hdrSym x) = .ok i) (he : exec i s = .next { s with hdr := h }) :
    stepSlot (hdrSlot x) s = .next { s with hdr := h } := by
  have hrun : runRequest (hdrSlot x) s = exec i s :=
    runRequest_of_accepted rfl rfl ((hdrInReady_iff s).2 ha) hdecode
  rw [stepSlot_hdrSlot x hr, hrun, he, andThen_next]
  exact congrArg Host.Outcome.next (takeOutput_none { s with hdr := h } hwait)

/-- The symbol of a slot for a stopped HDR stays with the host (R102, R104). -/
theorem stepSlot_hdrSlot_stopped (x : Sym) (hs : s.hdr.phase ≠ .active) :
    stepSlot (hdrSlot x) s = .next { s with held := s.held ++ [.hdrSym x] } := by
  have hready : portReady (.hdrSym x) s = false := hdrInReady_of_phase hs
  rw [stepSlot_hdrSlot x hr, runRequest_of_notReady rfl hready, andThen_next]
  exact congrArg Host.Outcome.next (takeOutput_none (holdWord (.hdrSym x) s) hwait)

/-- What is offered to a stopped HDR stays with the host, in order (R102, R104). -/
theorem feed_hdr_stopped (after : List Sym) (hs : s.hdr.phase ≠ .active) :
    feed (after.map hdrSlot) s = .next { s with held := s.held ++ after.map PortWord.hdrSym } := by
  induction after generalizing s with
  | nil => simp [feed]
  | cons x after ih =>
    rw [List.map_cons, feed_cons_of_next (stepSlot_hdrSlot_stopped hr hwait x hs),
      ih (s := { s with held := s.held ++ [.hdrSym x] }) hr hwait hs]
    simp

/-- R101: from HDR's reset state, up to 128 bytes are captured, and nothing else changes. -/
theorem feed_bytes {bs : List Byte} (hreset : s.hdr = Hdr.reset) (hlen : bs.length ≤ 128) :
    ∃ h : Hdr, h.Captured bs ∧ feed (bs.map fun b => hdrSlot (.byte b)) s = .next { s with hdr := h } := by
  induction bs using List.reverseRecOn with
  | nil => exact ⟨s.hdr, hreset ▸ hdrReset_captured, rfl⟩
  | append_singleton bs b ih =>
    rw [List.length_append, List.length_singleton] at hlen
    obtain ⟨h, hh, hfeed⟩ := ih (by omega)
    have ha := hh.active (by omega)
    have hc : h.cur.toNat < 128 := hh.cur ▸ hlen
    have hstep : stepSlot (hdrSlot (.byte b)) { s with hdr := h } = .next { s with hdr := capturedHdr b h } :=
      stepSlot_hdrSlot_accepted (s := { s with hdr := h }) hr hwait ha rfl (exec_hdrCapture_active b ha hc)
    refine ⟨capturedHdr b h, hh.capture b (by omega), ?_⟩
    rw [List.map_append, feed_append, hfeed, andThen_next, List.map_singleton, feed_cons_of_next hstep, feed]

/-- A whole header: 128 bytes are captured, and what is offered after them stays with the host (R101, R102). -/
theorem feed_full_header {bs : List Byte} (hreset : s.hdr = Hdr.reset) (hlen : bs.length = 128) (after : List Sym) :
    ∃ h : Hdr, h.Captured bs ∧ h.phase = .done ∧
      feed ((bs.map fun b => hdrSlot (.byte b)) ++ after.map hdrSlot) s =
        .next { s with hdr := h, held := s.held ++ after.map PortWord.hdrSym } := by
  obtain ⟨h, hh, hfeed⟩ := feed_bytes hr hwait hreset hlen.le
  have hd : h.phase = .done := hh.phase.trans (if_pos hlen)
  have hafter := feed_hdr_stopped (s := { s with hdr := h }) hr hwait after (by simp [hd])
  exact ⟨h, hh, hd, by rw [feed_append, hfeed, andThen_next, hafter]⟩

/-- A header cut short by `END`: TRUNCATED_INPUT over the bytes captured, and what is offered after `END` stays with the
host (R102, R103). -/
theorem feed_truncated_header {bs : List Byte} (hreset : s.hdr = Hdr.reset) (hlen : bs.length < 128)
    (after : List Sym) : ∃ h : Hdr, h.Captured bs ∧
      feed ((bs.map fun b => hdrSlot (.byte b)) ++ hdrSlot .endOfInput :: after.map hdrSlot) s =
        .next { s with
          hdr := { h with phase := .fault, err := .truncatedInput }, held := s.held ++ after.map PortWord.hdrSym } := by
  obtain ⟨h, hh, hfeed⟩ := feed_bytes hr hwait hreset hlen.le
  have ha := hh.active hlen
  have hend : stepSlot (hdrSlot .endOfInput) { s with hdr := h } = .next (raise .truncatedInput { s with hdr := h }) :=
    stepSlot_hdrSlot_accepted (s := { s with hdr := h }) hr hwait ha rfl (exec_hdrEnd_active ha)
  have hafter := feed_hdr_stopped (s := raise .truncatedInput { s with hdr := h }) hr hwait after (by simp)
  refine ⟨h, hh, ?_⟩
  rw [feed_append, hfeed, andThen_next, feed_cons_of_next hend, hafter]
  rfl

end

/-! ## The obligations -/

/-- Settles O19: the capture sets the byte at the cursor in the buffer, and its phase is that of the new cursor. -/
theorem captureStoresAtCursor : Obligations.CaptureStoresAtCursor := by
  intro s b ha hc
  have hcur := capturedHdr_cur_toNat b hc
  have hphase : (capturedHdr b s.hdr).phase = if s.hdr.cur.toNat = 127 then .done else .active := by
    simp [capturedHdr_phase b ha, hcur]
  exact ⟨rfl, _, exec_hdrCapture_active b ha hc, get_set_same _ _ _, fun a ne => get_set_other _ b ne, hcur, hphase,
    rfl, rfl⟩

/-- Settles O23: HDR's operations change nothing, and neither does a slot without those controls. -/
theorem stoppedHdrIsLeftOnlyByStartOrRst : Obligations.StoppedHdrIsLeftOnlyByStartOrRst := by
  intro s hs
  refine ⟨hdrInReady_of_phase hs, fun i hp => exec_hdr_stopped hp hs, fun t h hne => ?_⟩
  rcases step_next h with ⟨-, -, rfl⟩ | ⟨sl, rest, hinbox, -, u, hu, rfl⟩
  · exact absurd rfl hne
  · refine ⟨sl, by rw [hinbox, List.head?_cons], ?_⟩
    by_contra hno
    simp only [not_or, Bool.not_eq_true] at hno
    obtain ⟨hrst, hstart⟩ := hno
    exact hne ((takeOutput_hdr _ u).trans (slot_hdr_of_stopped (s := { s with inbox := rest }) hs hrst hstart hu))

/-- Settles O30: the bytes are captured one by one; a full buffer parses to the header of its bytes, `END` before that
raises TRUNCATED_INPUT, and a stopped HDR leaves the rest with the host. -/
theorem wholeHeaderObservation : Obligations.WholeHeaderObservation := by
  intro s bs hr hreset hwait
  refine ⟨fun hlen after => ?_, fun hlen after => ?_, fun hlen => ?_⟩
  · obtain ⟨h, hh, hd, hfeed⟩ := feed_full_header hr hwait hreset hlen after
    have hbytes : bytesFrom (fun k => bs.getD k 0) 0 128 = bs := hlen ▸ bytesFrom_getD bs
    refine ⟨_, headerOf fun k => bs.getD k 0, hfeed, ?_, (serialise_headerOf _).trans hbytes, bytesFrom_length _ _ _,
      bytesFrom_length _ _ _, fun k _ => hh.buf k, rfl⟩
    rw [observeHdr_of_holdsHeader hd (hh.holdsHeader hlen), hbytes]
  · obtain ⟨h, hh, hfeed⟩ := feed_truncated_header hr hwait hreset hlen after
    exact ⟨_, hfeed, by simp [observeHdr, hh.cur], rfl⟩
  · obtain ⟨h, hh, hfeed⟩ := feed_bytes hr hwait hreset hlen.le
    exact ⟨_, hfeed, by simp [observeHdr, hh.active hlen, hh.cur], rfl⟩

/-- Settles O22: `END` in ACTIVE is `raise`, which keeps the cursor. -/
theorem hdrEndRaisesTruncatedInput : Obligations.HdrEndRaisesTruncatedInput :=
  fun _ ha => ⟨rfl, _, exec_hdrEnd_active ha, rfl, rfl, rfl⟩

/-- Settles O24: each of the six is the read of one byte at its offset. -/
theorem byteFieldReads : Obligations.ByteFieldReads := by
  intro s v hd
  have hread : ∀ o, o < 128 → Memory.get s.hdr.buf o = some v → readU8 o s = .next (logRead (.byte v) s) :=
    fun o => readU8_of_get hd
  exact ⟨hread 0 (by omega), hread 1 (by omega), hread 2 (by omega), hread 3 (by omega), hread 64 (by omega),
    hread 65 (by omega)⟩

/-- Settles O25: each of the ten is the read of a packed pair at its offset. -/
theorem halfFieldReads : Obligations.HalfFieldReads := by
  intro s lo hi o i hd hmem hlo hhi
  have hread := readU16_of_get hd (halfFieldRows_inside (o, i) hmem) hlo hhi
  exact ⟨packHalf lo hi, packHalf_toNat lo hi, (exec_of_mem_halfFieldRows s (o, i) hmem).trans hread⟩

/-- Settles O26: each of the two is the read of a block at its offset. -/
theorem blockFieldReads : Obligations.BlockFieldReads :=
  fun _ _ hd => ⟨readBlock_of_get_length hd (by omega), readBlock_of_get_length hd (by omega)⟩

end Sys2Proof.Machine

/-! # Proofs: RLE decompressor

The RLE operations where RLE is ACTIVE and its port ready (R142 to R147), a stopped RLE (R148), the class an operation
is applied in (R140), a byte sequence read item by item (R74, R149 to R151), and a whole stream as slots (R149). -/

namespace Sys2Proof.Machine

/-! ## Operations in ACTIVE with nothing undrained -/

theorem emit_of_drained {s : State} (bs : List Byte) (hu : s.undrained = []) :
    emit bs s = { s with undrained := bs } := by
  rw [emit, hu, List.nil_append]

theorem literalEffect_of_drained {s : State} (v : Byte) (hu : s.undrained = []) : literalEffect v s =
    { s with undrained := [v], rle := { s.rle with pos := (s.rle.pos + 1) % 2 ^ s.posW } } := by
  rw [literalEffect, emit_of_drained _ hu]
  rfl

theorem dataEffect_of_drained {s : State} (d : Byte) (hu : s.undrained = []) : dataEffect d s =
    { s with undrained := List.replicate s.rle.cnt.toNat d
             rle := { s.rle with pend := false, cnt := 0#6, pos := (s.rle.pos + 1) % 2 ^ s.posW } } := by
  rw [dataEffect, emit_of_drained _ hu]
  rfl

section
variable {s : State} (ha : s.rle.phase = .active) (hu : s.undrained = [])
include ha hu

/-- R142: a byte below 0xC0 is one of the two rows of `LIT`, by its range, and both have one effect. -/
theorem literal_accepted {b : Byte} (hp : s.rle.pend = false) (hb : b.toNat < 0xC0) :
    ∃ i, (i = .litLow b ∧ b.toNat < 0x80 ∨ i = .litHigh b ∧ 0x80 ≤ b.toNat) ∧
      decode s.rle.pend (.rleSym (.byte b)) = .ok i ∧ exec i s = .next (literalEffect b s) := by
  have haccept : whenRleAccepts false (literalEffect b) s = .next (literalEffect b s) := whenRleAccepts_ready ha hu hp
  rw [hp]
  rcases Nat.lt_or_ge b.toNat 0x80 with h | h
  · exact ⟨.litLow b, .inl ⟨rfl, h⟩, congrArg Except.ok (decodeRleByte_low h), haccept⟩
  · exact ⟨.litHigh b, .inr ⟨rfl, h⟩, congrArg Except.ok (decodeRleByte_high h hb), haccept⟩

theorem exec_runMark_idle (n : BitVec 6) (hp : s.rle.pend = false) : exec (.runMark n) s = .next (markerEffect n s) :=
  whenRleAccepts_ready ha hu hp

theorem exec_runData_pending (d : Byte) (hp : s.rle.pend = true) : exec (.runData d) s = .next (dataEffect d s) :=
  whenRleAccepts_ready ha hu hp

theorem exec_endIdle_idle (hp : s.rle.pend = false) : exec .endIdle s = .next (endEffect s) :=
  whenRleAccepts_ready ha hu hp

theorem exec_endPend_pending (hp : s.rle.pend = true) : exec .endPend s = .next (raise .truncatedRun s) :=
  whenRleAccepts_ready (e := raise .truncatedRun) ha hu hp

end

/-! ## A stopped RLE -/

/-- R148: while RLE is not ready no operation of it changes anything. -/
theorem exec_rle_notReady {i : Instr} {s : State} (hp : i.port = .rle) (h : rleInReady s = false) :
    exec i s = .next s := by
  obtain ⟨p, e, -, hform⟩ := exec_rle_form hp
  exact (hform s).trans (whenRleAccepts_notReady h)

/-- No operation starts or ends the wait of a start (R243). -/
theorem exec_startWait {i : Instr} {s t : State} (h : exec i s = .next t) : t.startWait = s.startWait := by
  by_cases hp : i.port = .rle
  · rw [exec_rle_frame hp h]
  · rw [exec_frame_of_port_ne_rle hp h]

theorem runRequest_startWait {sl : Slot} {s t : State} (h : runRequest sl s = .next t) :
    t.startWait = s.startWait := by
  rcases runRequest_next h with rfl | ⟨w, i, -, -, -, -, he⟩ | ⟨w, -, -, rfl⟩ | ⟨v, rfl⟩
  · rfl
  · exact exec_startWait he
  · rfl
  · rfl

/-- A slot with neither `rst` nor `rle_start`, and no start waiting, leaves a stopped RLE as it is (R148). -/
theorem slot_rle_of_stopped {sl : Slot} {s u : State} (hs : s.rle.phase ≠ .active) (hw : s.startWait = false)
    (hrst : sl.rst = false) (hstart : sl.rleStart = false) (hu : runRequest sl (applyControls sl s) = .next u) :
    (takeOutput sl.take u).rle = s.rle := by
  obtain ⟨hcontrols, -, hwait⟩ := applyControls_rle (s := s) hrst hstart
  have hrequest : u.rle = (applyControls sl s).rle := by
    rcases runRequest_rle hu with ⟨hrle, -⟩ | ⟨w, i, -, -, -, hp, -, he⟩
    · exact hrle
    · rw [exec_rle_notReady hp (rleInReady_of_phase (hcontrols ▸ hs))] at he
      cases he
      rfl
  have htake : (takeOutput sl.take u).rle = u.rle := by
    rw [takeOutput_noWait _ ((runRequest_startWait hu).trans (hwait.trans hw))]
  rw [htake, hrequest, hcontrols]

/-! ## The class of an operation -/

/-- An operation of the class of `rle_pend` is never refused as one of the wrong class (R140). -/
theorem exec_ne_wrongClass {i : Instr} {s : State} (hfits : i.fits s.rle.pend = true) :
    exec i s ≠ .refused .wrongClass := by
  rcases port_cases i with hp | hp | hp
  · obtain ⟨p, e, hclass, hform⟩ := exec_rle_form hp
    have hpend : s.rle.pend = p := eq_of_fits hclass hfits
    rw [hform, whenRleAccepts]
    split <;> simp [hpend]
  · by_cases ha : s.hdr.phase = .active
    · cases i with
      | hdrCapture b =>
        rcases Nat.lt_or_ge s.hdr.cur.toNat 128 with hc | hc
        · simp [exec_hdrCapture_active b ha hc]
        · simp [captureBeyondBufferIsRefused s b ha hc]
      | hdrEnd => simp [exec_hdrEnd_active ha]
      | _ => cases hp
    · simp [exec_hdr_stopped hp ha]
  · by_cases hd : s.hdr.phase = .done
    · rcases exec_field_readsOrMissing hd hp with ⟨t, ht⟩ | ⟨a, -, -, ht⟩ <;> simp [ht]
    · simp [fieldReadBeforeDoneFaults s i hd hp]

/-- A request runs only what its word decodes to, which is of the class of `rle_pend`. -/
theorem runRequest_ne_wrongClass (sl : Slot) (s : State) : runRequest sl s ≠ .refused .wrongClass := by
  unfold runRequest
  split
  · nofun
  · next w _ =>
    split
    · unfold runWord
      split
      · next i hdecode =>
        obtain ⟨-, -, hfits⟩ := encodeOfDecode _ w i hdecode
        exact exec_ne_wrongClass hfits
      · simp
    · nofun
  · unfold readStatus
    split
    · nofun
    · simp
  · nofun

theorem andThen_next_eq_refused {α β : Type} {o : Host.Outcome α Fault Refusal} {f : α → β} {r : Refusal} :
    andThen o (fun a => .next (f a)) = .refused r ↔ o = .refused r := by
  cases o <;> simp [andThen]

theorem stepSlot_ne_wrongClass (sl : Slot) (s : State) : stepSlot sl s ≠ .refused .wrongClass := by
  unfold stepSlot
  split
  · exact fun h => runRequest_ne_wrongClass _ _ (andThen_next_eq_refused.1 h)
  · simp

/-! ## A byte sequence, item by item -/

/-- R74: a byte sequence is read from its front as a literal, a whole run, or a marker with nothing after it. -/
theorem items_induction {motive : List Byte → Prop} (nil : motive [])
    (literal : ∀ (b : Byte) (rest : List Byte), b.toNat < 0xC0 → motive rest → motive (b :: rest))
    (run : ∀ (n : BitVec 6) (d : Byte) (rest : List Byte), motive rest → motive (markerByte n :: d :: rest))
    (dangling : ∀ n : BitVec 6, motive [markerByte n]) : ∀ bs, motive bs
  | [] => nil
  | [b] => by
    rcases Nat.lt_or_ge b.toNat 0xC0 with h | h
    · exact literal b [] h nil
    · exact markerByte_markerCount h ▸ dangling (markerCount b)
  | b :: d :: rest => by
    rcases Nat.lt_or_ge b.toNat 0xC0 with h | h
    · exact literal b (d :: rest) h (items_induction nil literal run dangling (d :: rest))
    · exact markerByte_markerCount h ▸
        run (markerCount b) d rest (items_induction nil literal run dangling rest)

theorem streamFrom_literal {b : Byte} (h : b.toNat < 0xC0) (rest out : List Byte) :
    streamFrom (b :: rest) out = streamFrom rest (out ++ [b]) := by
  cases rest with
  | nil => simp [streamFrom, isMarker_eq_false h]
  | cons d rest => simp [streamFrom, isMarker_eq_false h]

theorem streamFrom_dangling (n : BitVec 6) (out : List Byte) : streamFrom [markerByte n] out = .truncatedRun out n := by
  rw [streamFrom, if_pos (isMarker_markerByte n), markerCount_markerByte]

theorem outputCount_literal {b : Byte} (h : b.toNat < 0xC0) (rest : List Byte) :
    outputCount (b :: rest) = 1 + outputCount rest := by
  cases rest with
  | nil => simp [outputCount, isMarker_eq_false h]
  | cons d rest => simp [outputCount, isMarker_eq_false h]

theorem outputCount_run (n : BitVec 6) (d : Byte) (rest : List Byte) :
    outputCount (markerByte n :: d :: rest) = n.toNat + outputCount rest := by
  rw [outputCount, if_pos (isMarker_markerByte n), markerCount_markerByte]

theorem outputCount_dangling (n : BitVec 6) : outputCount [markerByte n] = 0 := by
  rw [outputCount, if_pos (isMarker_markerByte n)]

/-- R150, after any output. -/
theorem streamFrom_literals {bs : List Byte} (h : ∀ b ∈ bs, b.toNat < 0xC0) (out : List Byte) :
    streamFrom bs out = .ok (out ++ bs) := by
  induction bs generalizing out with
  | nil => rw [streamFrom, List.append_nil]
  | cons b bs ih =>
    obtain ⟨hb, hbs⟩ := List.forall_mem_cons.1 h
    rw [streamFrom_literal hb, ih hbs, List.append_assoc, List.singleton_append]

/-- R151, after any output. -/
theorem streamFrom_length {bs before out : List Byte} (h : streamFrom bs before = .ok out) :
    out.length = before.length + outputCount bs := by
  induction bs using items_induction generalizing before with
  | nil =>
    cases h
    rfl
  | literal b rest hb ih =>
    rw [streamFrom_literal hb] at h
    rw [ih h, outputCount_literal hb, List.length_append, List.length_singleton, Nat.add_assoc]
  | run n d rest ih =>
    rw [streamFrom_run] at h
    rw [ih h, outputCount_run, List.length_append, List.length_replicate, Nat.add_assoc]
  | dangling n =>
    rw [streamFrom_dangling] at h
    cases h

/-- R151: two input bytes give at most 63 output bytes, and an odd one out gives one. -/
theorem outputCount_le (bs : List Byte) : outputCount bs ≤ 63 * (bs.length / 2) + bs.length % 2 := by
  induction bs using items_induction with
  | nil => exact Nat.zero_le _
  | literal b rest hb ih =>
    rw [outputCount_literal hb, List.length_cons]
    omega
  | run n d rest ih =>
    rw [outputCount_run, List.length_cons, List.length_cons]
    omega
  | dangling n =>
    rw [outputCount_dangling]
    exact Nat.zero_le _

/-! ## A whole stream -/

/-- `s` after `k` bytes of a stream, with `out` delivered and the run of that count pending, if any (R28 to R30). -/
def State.midStream (s : State) (out : List Byte) (k : Nat) (run : Option (BitVec 6)) : State :=
  { s with
    sink := s.sink ++ out
    undrained := []
    rle := { phase := .active, pend := run.isSome, cnt := run.getD 0#6, pos := wrapPos s.posW k, err := .none } }

/-- `s` after a stream of `k` bytes with this result and `END` (R146, R147, R149). -/
def State.endStream (s : State) (k : Nat) : StreamResult → State
  | .ok out => endEffect (s.midStream out k none)
  | .truncatedRun out n => raise .truncatedRun (s.midStream out k (some n))

theorem rleStream_cons (b : Byte) (bs : List Byte) : rleStream (b :: bs) = rleSlot (.byte b) :: rleStream bs := rfl

/-- A symbol accepted with nothing undrained and no start waiting is run, and the sink takes all it emits (R41, R56). -/
theorem stepSlot_rleSlot {s t : State} {x : Sym} {i : Instr} (hr : s.rstSeen = true) (hw : s.startWait = false)
    (ha : s.rle.phase = .active) (hu : s.undrained = []) (hdecode : decode s.rle.pend (.rleSym x) = .ok i)
    (he : exec i s = .next t) :
    stepSlot (rleSlot x) s = .next { t with sink := t.sink ++ t.undrained, undrained := [] } := by
  have hrun : runRequest (rleSlot x) s = exec i s :=
    runRequest_of_accepted rfl rfl ((rleInReady_iff s).2 ⟨ha, hu⟩) hdecode
  obtain ⟨bs, hout, hlen, -⟩ := exec_rle_output (decode_port hdecode) he
  have hlen : t.undrained.length ≤ 63 := by rwa [hout, hu, List.nil_append]
  rw [stepSlot_eq (.inl hr), applyControls_none _ rfl rfl rfl, hrun, he, andThen_next]
  refine congrArg Host.Outcome.next ((takeOutput_noWait 63 ((exec_startWait he).trans hw)).trans ?_)
  rw [List.take_of_length_le hlen, List.drop_of_length_le hlen]

section
variable {s : State} (hr : s.rstSeen = true) (hw : s.startWait = false)
include hr hw

/-- R145: with a run pending every byte is its data, 0xC0 and above included. -/
theorem stepSlot_data {b : Byte} (ha : s.rle.phase = .active) (hu : s.undrained = []) (hp : s.rle.pend = true) :
    stepSlot (rleSlot (.byte b)) s = .next { s with
      sink := s.sink ++ List.replicate s.rle.cnt.toNat b
      rle := { s.rle with pend := false, cnt := 0#6, pos := (s.rle.pos + 1) % 2 ^ s.posW } } := by
  have hdecode : decode s.rle.pend (.rleSym (.byte b)) = .ok (.runData b) := hp ▸ rfl
  rw [stepSlot_rleSlot hr hw ha hu hdecode (exec_runData_pending ha hu b hp), dataEffect_of_drained b hu, ← hu]

variable (out : List Byte) (k : Nat)

theorem stepSlot_midStream (run : Option (BitVec 6)) {x : Sym} {i : Instr} {t : State}
    (hdecode : decode run.isSome (.rleSym x) = .ok i) (he : exec i (s.midStream out k run) = .next t) :
    stepSlot (rleSlot x) (s.midStream out k run) = .next { t with sink := t.sink ++ t.undrained, undrained := [] } :=
  stepSlot_rleSlot (s := s.midStream out k run) hr hw rfl rfl hdecode he

theorem stepSlot_midStream_literal {b : Byte} (hb : b.toNat < 0xC0) :
    stepSlot (rleSlot (.byte b)) (s.midStream out k none) = .next (s.midStream (out ++ [b]) (k + 1) none) := by
  obtain ⟨i, -, hdecode, he⟩ := literal_accepted (s := s.midStream out k none) rfl rfl rfl hb
  rw [stepSlot_midStream hr hw out k none hdecode he, literalEffect_of_drained b rfl]
  simp [State.midStream, wrapPos]

theorem stepSlot_midStream_marker (n : BitVec 6) :
    stepSlot (rleSlot (.byte (markerByte n))) (s.midStream out k none) = .next (s.midStream out (k + 1) (some n)) := by
  rw [stepSlot_midStream hr hw out k none (decode_encode_runMark n) (exec_runMark_idle rfl rfl n rfl)]
  simp [State.midStream, markerEffect, advanceRlePos, setPending, wrapPos_add]

theorem stepSlot_midStream_data (n : BitVec 6) (d : Byte) :
    stepSlot (rleSlot (.byte d)) (s.midStream out k (some n)) =
      .next (s.midStream (out ++ List.replicate n.toNat d) (k + 1) none) := by
  rw [stepSlot_data (s := s.midStream out k (some n)) hr hw rfl rfl rfl]
  simp [State.midStream, wrapPos]

theorem stepSlot_midStream_end : stepSlot (rleSlot .endOfInput) (s.midStream out k none) =
    .next (s.endStream k (.ok out)) := by
  rw [stepSlot_midStream hr hw out k none rfl (exec_endIdle_idle rfl rfl rfl)]
  simp [State.endStream, State.midStream, endEffect]

theorem stepSlot_midStream_end_pending (n : BitVec 6) :
    stepSlot (rleSlot .endOfInput) (s.midStream out k (some n)) = .next (s.endStream k (.truncatedRun out n)) := by
  rw [stepSlot_midStream hr hw out k (some n) rfl (exec_endPend_pending rfl rfl rfl)]
  simp [State.endStream, State.midStream, raise]

/-- R149: the machine goes through the bytes as `go(s, out)` does. -/
theorem feed_rleStream (bs : List Byte) : feed (rleStream bs) (s.midStream out k none) =
    .next (s.endStream (k + bs.length) (streamFrom bs out)) := by
  induction bs using items_induction generalizing out k with
  | nil => exact feed_cons_of_next (stepSlot_midStream_end hr hw out k)
  | literal b rest hb ih =>
    rw [rleStream_cons, feed_cons_of_next (stepSlot_midStream_literal hr hw out k hb), ih, streamFrom_literal hb,
      List.length_cons, Nat.add_right_comm, Nat.add_assoc]
  | run n d rest ih =>
    have hk : k + 1 + 1 + rest.length = k + (rest.length + 1 + 1) := by omega
    rw [rleStream_cons, rleStream_cons, feed_cons_of_next (stepSlot_midStream_marker hr hw out k n),
      feed_cons_of_next (stepSlot_midStream_data hr hw out (k + 1) n d), ih, streamFrom_run, hk]
    rfl
  | dangling n =>
    rw [rleStream_cons, feed_cons_of_next (stepSlot_midStream_marker hr hw out k n), streamFrom_dangling]
    exact feed_cons_of_next (stepSlot_midStream_end_pending hr hw out (k + 1) n)

end

/-- From RLE's reset state the stream begins. -/
theorem midStream_start {s : State} (hrle : s.rle = Rle.reset) (hu : s.undrained = []) : s.midStream [] 0 none = s := by
  obtain ⟨posW, hdr, rle, undrained, startWait, rstSeen, sink, inbox, held, reads⟩ := s
  cases hrle
  cases hu
  simp [State.midStream, wrapPos]

/-! ## The obligations -/

/-- Settles O14: no operation and no slot without those controls changes a stopped RLE; only a waiting start does. -/
theorem stoppedRleIsLeftOnlyByStartOrRst : Obligations.StoppedRleIsLeftOnlyByStartOrRst := by
  intro s hs
  refine ⟨rleInReady_of_phase hs, fun i hp => exec_rle_notReady hp (rleInReady_of_phase hs), fun t h hne => ?_⟩
  rcases step_next h with ⟨-, -, rfl⟩ | ⟨sl, rest, hinbox, -, u, hu, rfl⟩
  · exact absurd rfl hne
  · by_contra hno
    have hhead : s.inbox.head? = some sl := by rw [hinbox, List.head?_cons]
    have hw : s.startWait = false := Bool.eq_false_iff.2 fun h => hno (.inl h)
    have hrst : sl.rst = false := Bool.eq_false_iff.2 fun h => hno (.inr ⟨sl, hhead, .inl h⟩)
    have hstart : sl.rleStart = false := Bool.eq_false_iff.2 fun h => hno (.inr ⟨sl, hhead, .inr h⟩)
    exact hne (slot_rle_of_stopped (s := { s with inbox := rest }) hs hw hrst hstart hu)

/-- Settles O17: a step is idle or a slot, and a slot runs what its word decodes to by `rle_pend`. -/
theorem stepNeverAppliesWrongClass : Obligations.StepNeverAppliesWrongClass := by
  intro s
  unfold step
  split
  · unfold stepIdle
    split <;> simp
  · exact stepSlot_ne_wrongClass _ _

/-- Settles O31: from RLE's reset state the slots follow `decode(s)`, and `END` ends the stream or raises. -/
theorem machineRefinesStreamDecode : Obligations.MachineRefinesStreamDecode := by
  intro s bs hr hrle hu hw
  have hfeed := feed_rleStream hr hw [] 0 bs
  rw [midStream_start hrle hu, Nat.zero_add] at hfeed
  refine ⟨fun out h => ?_, fun out n h => ?_⟩
  · rw [hfeed, ← decodeStream, h, hu]
    rfl
  · rw [hfeed, ← decodeStream, h, hu]
    rfl

/-- Settles O32: each literal is added to the output. -/
theorem literalsDecodeToThemselves : Obligations.LiteralsDecodeToThemselves :=
  fun _ h => streamFrom_literals h []

/-- Settles O33: the length is the count of the items' outputs, which the bound holds for item by item. -/
theorem outputLengthAndBounds : Obligations.OutputLengthAndBounds := by
  intro bs out h
  have hlen : out.length = outputCount bs := (streamFrom_length h).trans (Nat.zero_add _)
  exact ⟨hlen, hlen ▸ outputCount_le bs⟩

/-- Settles O7: both rows of `LIT` have the one effect. -/
theorem literalEmitsItsByte : Obligations.LiteralEmitsItsByte := by
  intro s b ha hu hp hb
  rw [← literalEffect_of_drained b hu]
  exact literal_accepted ha hu hp hb

/-- Settles O8: the count is the marker's low six bits. -/
theorem runMarkerSetsPending : Obligations.RunMarkerSetsPending := by
  intro s b ha hu hp hb
  have hlow : (b &&& 0x3F#8).toNat = b.toNat % 64 := (BitVec.toNat_and _ _).trans (Nat.and_two_pow_sub_one_eq_mod _ 6)
  refine ⟨markerCount b, (markerCount_toNat b).trans hlow.symm, ?_, exec_runMark_idle ha hu _ hp⟩
  rw [hp]
  exact congrArg Except.ok (decodeRleByte_marker hb)

/-- Settles O9: with a run pending the decoder does not look at the byte. -/
theorem runDataEmitsCopies : Obligations.RunDataEmitsCopies := by
  intro s d ha hu hp
  rw [exec_runData_pending ha hu d hp, dataEffect_of_drained d hu, hp]
  exact ⟨rfl, rfl⟩

/-- Settles O12: with no run pending `END` decodes to END_IDLE, whose effect is the phase. -/
theorem endInIdleEndsStream : Obligations.EndInIdleEndsStream := by
  intro s ha hu hp
  rw [exec_endIdle_idle ha hu hp, hp]
  exact ⟨rfl, rfl⟩

/-- Settles O13: the fault keeps the position and the count, which its context is read from. -/
theorem endInPendingRaisesTruncatedRun : Obligations.EndInPendingRaisesTruncatedRun := by
  intro s ha hu hp
  rw [hp]
  exact ⟨rfl, _, exec_endPend_pending ha hu hp, rfl, rfl, rfl⟩

/-- Settles O16: every RLE operation is an acceptance for its row's value of `rle_pend`. -/
theorem wrongClassIsRefused : Obligations.WrongClassIsRefused := by
  intro s i ha hu hp hfits
  obtain ⟨p, e, hclass, hform⟩ := exec_rle_form hp
  have hpend : s.rle.pend ≠ p := fun h => by simp [Instr.fits, hclass, h] at hfits
  exact (hform s).trans (whenRleAccepts_wrongClass ((rleInReady_iff s).2 ⟨ha, hu⟩) hpend)

/-- Settles O18: with a run pending every byte is data, so the range of this one is not needed. -/
theorem markerValuedDataByteIsEmitted : Obligations.MarkerValuedDataByteIsEmitted := by
  intro s b rest hr ha hu hw hp _ hinbox
  rw [step_of_slot hinbox]
  exact stepSlot_data (s := { s with inbox := rest }) hr hw ha hu hp

end Sys2Proof.Machine

/-! # Proofs: host container

The source's layout (R181), the palette and the grid (R186, R190), what the host's slots bring HDR and RLE to (R183,
R184, R196), and the host's functions over those: a Container, its grid on request, a whole decode (R180, R219). -/

namespace Sys2Proof.Machine

/-! ## The source's layout -/

theorem headerSlots_of_full {src : List Byte} (hlen : 128 ≤ src.length) :
    headerSlots src = (src.take 128).map fun b => hdrSlot (.byte b) := by
  rw [headerSlots, if_neg (Nat.not_lt.2 hlen), List.append_nil]

theorem headerSlots_of_short {src : List Byte} (hlen : src.length < 128) :
    headerSlots src = (src.map fun b => hdrSlot (.byte b)) ++ [hdrSlot .endOfInput] := by
  rw [headerSlots, if_pos hlen, List.take_of_length_le hlen.le]

theorem compressedRegion_length (src : List Byte) : (compressedRegion src).length = src.length - 897 := by
  simp only [compressedRegion, List.length_take, List.length_drop, hdrLen_eq, minSourceLen_eq]
  omega

theorem compressedRegion_getElem? {src : List Byte} {k : Nat} (hk : k < src.length - 897) :
    (compressedRegion src)[k]? = src[128 + k]? := by
  rw [compressedRegion, List.getElem?_take_of_lt hk, List.getElem?_drop]

theorem paletteBytes_getElem? (src : List Byte) (k : Nat) :
    (paletteBytes src)[k]? = src[src.length - 768 + k]? := List.getElem?_drop

theorem paletteBytes_length {src : List Byte} (hlen : 768 ≤ src.length) : (paletteBytes src).length = 768 := by
  rw [paletteBytes, List.length_drop, palBytes_eq]
  omega

/-! ## The palette -/

/-- R186: one entry for each whole triple. -/
theorem colors_length (bs : List Byte) : (colors bs).length = bs.length / 3 := by
  induction bs using colors.induct with
  | case1 r g b rest ih =>
    simp only [colors, List.length_cons, ih]
    omega
  | case2 bs hshort =>
    have hlt : bs.length < 3 := by
      match bs, hshort with
      | [], _ | [_], _ | [_, _], _ => simp
      | r :: g :: b :: rest, h => exact absurd rfl (h r g b rest)
    rw [colors.eq_2 bs hshort, List.length_nil, Nat.div_eq_of_lt hlt]

/-- R186: the i-th triple is the i-th entry. -/
theorem colors_getElem? {bs : List Byte} {i : Nat} {r g b : Byte} (hr : bs[3 * i]? = some r)
    (hg : bs[3 * i + 1]? = some g) (hb : bs[3 * i + 2]? = some b) :
    (colors bs)[i]? = some { r := r, g := g, b := b, a := 0xFF#8 } := by
  induction i generalizing bs with
  | zero =>
    match bs with
    | _ :: _ :: _ :: _ => simp_all [colors]
  | succ i ih =>
    match bs with
    | _ :: _ :: _ :: rest =>
      rw [colors, List.getElem?_cons_succ]
      exact ih hr hg hb

/-! ## The grid -/

theorem gridCell_of_index {palette : List Color} {idx : List Byte} {k : Nat} {i : Byte} (h : idx[k]? = some i) :
    gridCell palette idx k = paletteColor palette i := by
  rw [gridCell, h]

/-- R191: past the end of the output a cell is DEFAULT. -/
theorem gridCell_past_end (palette : List Color) {idx : List Byte} {k : Nat} (h : idx.length ≤ k) :
    gridCell palette idx k = defaultColor := by
  rw [gridCell, List.getElem?_eq_none h]

theorem gridRows_length (palette : List Color) (idx : List Byte) (width height : Nat) :
    (gridRows palette idx width height).length = height := by
  rw [gridRows, List.length_map, List.length_range]

/-- Row `y` of the grid (R190, R192). -/
def gridRow (palette : List Color) (idx : List Byte) (width y : Nat) : List Color :=
  (List.range width).map fun x => gridCell palette idx (y * width + x)

theorem gridRow_length (palette : List Color) (idx : List Byte) (width y : Nat) :
    (gridRow palette idx width y).length = width := by
  rw [gridRow, List.length_map, List.length_range]

theorem gridRow_getElem? (palette : List Color) (idx : List Byte) {width x : Nat} (y : Nat) (hx : x < width) :
    (gridRow palette idx width y)[x]? = some (gridCell palette idx (y * width + x)) := by
  rw [gridRow, List.getElem?_map, List.getElem?_range hx, Option.map_some]

theorem gridRows_getElem? (palette : List Color) (idx : List Byte) (width : Nat) {height y : Nat} (hy : y < height) :
    (gridRows palette idx width height)[y]? = some (gridRow palette idx width y) := by
  rw [gridRows, List.getElem?_map, List.getElem?_range hy, Option.map_some, gridRow]

/-! ## The invariant along a feed -/

theorem stepSlot_inv {sl : Slot} {s t : State} (hs : s.Inv) (h : stepSlot sl s = .next t) : t.Inv := by
  obtain ⟨-, u, hu, rfl⟩ := stepSlot_next.1 h
  exact takeOutput_inv (runRequest_inv (applyControls_inv (.inl hs)) hu)

theorem feed_inv {slots : List Slot} {s t : State} (hs : s.Inv) (h : feed slots s = .next t) : t.Inv := by
  induction slots generalizing s with
  | nil =>
    cases h
    exact hs
  | cons sl rest ih =>
    obtain ⟨u, hu, hrest⟩ := andThen_eq_next.1 h
    exact ih (stepSlot_inv hs hu) hrest

/-! ## The host's starts -/

/-- `s` once the sink has all its output and RLE has started (R184, R243). -/
def State.rleStarted (s : State) : State :=
  { s with sink := s.sink ++ s.undrained, undrained := [], rle := Rle.reset, startWait := false }

theorem feed_regionStartSlot {s : State} (hr : s.rstSeen = true) (slots : List Slot) :
    feed (regionStartSlot s :: slots) s = feed slots s.rleStarted :=
  feed_cons_of_next (stepSlot_regionStartSlot hr)

theorem feed_restartSlot {s : State} (hr : s.rstSeen = true) (slots : List Slot) :
    feed (restartSlot s :: slots) s = feed slots (applyHdrStart s).rleStarted :=
  feed_cons_of_next (stepSlot_restartSlot hr)

/-! ## The Container -/

/-- `t` is a machine whose HDR has parsed the source's first 128 bytes to the header `h`, with RLE in its reset state
(R183, R196). -/
structure HeaderParsed (src : List Byte) (h : Header) (t : State) : Prop where
  bytes : serialise h = src.take 128
  pal16 : h.pal16.length = 48
  pad : h.pad.length = 54
  inv : t.Inv
  observed : observeHdr t = .done (src.take 128) h
  rle : t.rle = Rle.reset

theorem containerOf_of_short {src : List Byte} (hlen : src.length < 897) (h : Header) (t : State) :
    containerOf src h t = .failed (.sourceTooShort 897 src.length) := if_pos hlen

theorem containerOf_of_full {src : List Byte} (hlen : 897 ≤ src.length) (h : Header) (t : State) :
    containerOf src h t =
      .built { header := h, region := compressedRegion src, palette := colors (paletteBytes src) } t :=
  if_neg (Nat.not_lt.2 hlen)

section
variable {src : List Byte} {s : State} (hs : s.Inv)
include hs

/-- R183, R196: the restart brings both units to their reset states, and then HDR parses the 128 bytes it is fed. -/
theorem buildContainer_of_header (hlen : 128 ≤ src.length) :
    ∃ h t, buildContainer (.bytes src) s = containerOf src h t ∧ HeaderParsed src h t ∧ t.posW = s.posW := by
  have ⟨hr, _⟩ := hs
  obtain ⟨hparse, -, -⟩ := wholeHeaderObservation (applyHdrStart s).rleStarted (src.take 128) hr rfl nofun
  obtain ⟨t, h, hfeed, hobs, hbytes, hpal16, hpad, -, hframe⟩ := hparse (List.length_take_of_le hlen) []
  rw [List.map_nil, List.append_nil, ← headerSlots_of_full hlen, ← feed_restartSlot hr] at hfeed
  refine ⟨h, t, by simp [buildContainer, hfeed, hobs], ⟨hbytes, hpal16, hpad, feed_inv hs hfeed, hobs, ?_⟩, ?_⟩
  · rw [hframe, State.rleStarted]
  · rw [hframe, State.rleStarted, applyHdrStart]

/-- R182, R183: a source that ends inside the header. -/
theorem buildContainer_of_truncated (hlen : src.length < 128) :
    buildContainer (.bytes src) s = .failed (.truncatedInput { expected := 128, actual := src.length }) := by
  have ⟨hr, _⟩ := hs
  obtain ⟨-, hend, -⟩ := wholeHeaderObservation (applyHdrStart s).rleStarted src hr rfl nofun
  obtain ⟨t, hfeed, hobs, -⟩ := hend hlen []
  rw [List.map_nil, ← headerSlots_of_short hlen, ← feed_restartSlot hr] at hfeed
  simp [buildContainer, hfeed, hobs]

end

/-! ## The grid on request -/

section
variable (mode : DimMode) (c : Container) {s : State}

/-- R189: non-positive dimensions are refused before the region is fed (notes/assumptions/9.md). -/
theorem pixelGrid_refused (hdim : gridWidth mode c.header ≤ 0 ∨ gridHeight c.header ≤ 0) :
    pixelGrid mode c s = .refusedDimensions (gridWidth mode c.header) (gridHeight c.header) := if_pos hdim

theorem pixelGrid_of_positive (hw : 0 < gridWidth mode c.header) (hh : 0 < gridHeight c.header) :
    pixelGrid mode c s = decodeRegion mode c s := if_neg (by omega)

/-- R184, R190: after the start the region's whole output is what RLE adds to the output stream. -/
theorem decodeRegion_of_ok (hr : s.rstSeen = true) {idx : List Byte} (h : decodeStream c.region = .ok idx) :
    decodeRegion mode c s =
      .image c (gridRows c.palette idx (gridWidth mode c.header).toNat (gridHeight c.header).toNat) := by
  obtain ⟨hok, -⟩ := machineRefinesStreamDecode s.rleStarted c.region hr rfl rfl rfl
  have hfeed := (feed_regionStartSlot hr _).trans (hok idx h)
  simp [decodeRegion, hfeed, observeRle, outputStream, State.rleStarted]

/-- R212, R216: a region that ends in a dangling marker fails with the context RLE's frozen state records. -/
theorem decodeRegion_of_truncatedRun (hr : s.rstSeen = true) {out : List Byte} {n : BitVec 6}
    (h : decodeStream c.region = .truncatedRun out n) :
    decodeRegion mode c s = .failed (.truncatedRun
      { markerPos := (c.region.length % 2 ^ s.posW + 2 ^ s.posW - 1) % 2 ^ s.posW, count := n,
        inputLen := c.region.length % 2 ^ s.posW, expectedLen := c.region.length % 2 ^ s.posW + 1 }) := by
  obtain ⟨-, hfail⟩ := machineRefinesStreamDecode s.rleStarted c.region hr rfl rfl rfl
  have hfeed := (feed_regionStartSlot hr _).trans (hfail out n h)
  simp [decodeRegion, hfeed, observeRle, runContext, wrapPos, State.rleStarted]

end

/-! ## A whole decode -/

theorem formatCheck_bpp {h : Header} (hbpp : h.bpp ≠ 8#8) :
    formatCheck h = some (.unsupportedFormat .bpp h.bpp) := if_pos hbpp

theorem formatCheck_nplanes {h : Header} (hbpp : h.bpp = 8#8) (hnplanes : h.nplanes ≠ 1#8) :
    formatCheck h = some (.unsupportedFormat .nplanes h.nplanes) := by
  rw [formatCheck, if_neg (not_not.2 hbpp), if_pos hnplanes]

theorem formatCheck_supported {h : Header} (hbpp : h.bpp = 8#8) (hnplanes : h.nplanes = 1#8) :
    formatCheck h = none := by
  rw [formatCheck, if_neg (not_not.2 hbpp), if_neg (not_not.2 hnplanes)]

section
variable (mode : DimMode) {source : Source} {s t : State} {c : Container}

theorem hostDecode_of_failed {f : HostFailure} (h : buildContainer source s = .failed f) :
    hostDecode mode source s = .failed f := by
  rw [hostDecode, h]

theorem hostDecode_of_badFormat {f : HostFailure} (h : buildContainer source s = .built c t)
    (hformat : formatCheck c.header = some f) : hostDecode mode source s = .failed f := by
  simp only [hostDecode, h, hformat]

theorem hostDecode_of_supported (h : buildContainer source s = .built c t) (hformat : formatCheck c.header = none) :
    hostDecode mode source s = pixelGrid mode c t := by
  simp only [hostDecode, h, hformat]

end

/-! ## The obligations -/

/-- Settles O56: the region and the palette are a take and a drop of the source. -/
theorem compressedRegionIsTheMiddle : Obligations.CompressedRegionIsTheMiddle := by
  intro src hlen
  have hregion : (compressedRegion src).length = src.length - 128 - 769 := by rw [compressedRegion_length, Nat.sub_sub]
  exact ⟨headerSlots_of_full (by omega), hregion, fun _ => compressedRegion_getElem?, List.head?_drop,
    paletteBytes_length (by omega), paletteBytes_getElem? src⟩

/-- Settles O57: 768 bytes are 256 triples, and entry i is the i-th of them. -/
theorem paletteEntriesAreTriples : Obligations.PaletteEntriesAreTriples := by
  intro src hlen
  refine ⟨by rw [colors_length, paletteBytes_length (by omega)], fun i r g b hr hg hb => ?_⟩
  rw [Nat.add_assoc, ← paletteBytes_getElem?] at hg hb
  rw [← paletteBytes_getElem?] at hr
  rw [paletteColor, List.getD_eq_getElem?_getD, colors_getElem? hr hg hb, Option.getD_some]

/-- Settles O58: the cell in row y and column x has the raster index y * width + x. -/
theorem gridCellsFollowRasterOrder : Obligations.GridCellsFollowRasterOrder := by
  intro palette idx width height x y hx hy
  have hcell := gridRow_getElem? palette idx y hx
  exact ⟨gridRows_length palette idx width height, _, gridRows_getElem? palette idx width hy,
    gridRow_length palette idx width y, fun i hi => by rw [hcell, gridCell_of_index hi],
    fun hend => by rw [hcell, gridCell_past_end palette hend, defaultColor]⟩

/-- Settles O59: HDR parses the header from its reset state; the grid is the region's decoding from RLE's. -/
theorem containerThenGridOnRequest : Obligations.ContainerThenGridOnRequest := by
  refine ⟨fun src s hs hlen => ?_, fun mode c s hs => ⟨pixelGrid_refused mode c, fun hw hh => ?_⟩⟩
  · obtain ⟨h, t, hbuild, hp, -⟩ := buildContainer_of_header hs (src := src) (by omega)
    exact ⟨h, t, hbuild.trans (containerOf_of_full hlen h t), hp.bytes, hp.pal16, hp.pad, hp.inv, hp.observed, hp.rle⟩
  · obtain ⟨hr, -⟩ := hs
    rw [pixelGrid_of_positive mode c hw hh]
    exact ⟨fun _ => decodeRegion_of_ok mode c hr, fun _ _ => decodeRegion_of_truncatedRun mode c hr⟩

/-- Settles O60: the checks in the order of R219, each on what the one before it left; the grid of the Container that
was built is O59's. -/
theorem hostDecodeFollowsFraming : Obligations.HostDecodeFollowsFraming := by
  refine ⟨fun mode content s => rfl, fun mode src s hs => ⟨fun hlen => ?_, fun hhdr hlen => ?_, fun hlen => ?_⟩⟩
  · exact hostDecode_of_failed mode (buildContainer_of_truncated hs hlen)
  · obtain ⟨h, t, hbuild, -, -⟩ := buildContainer_of_header hs hhdr
    exact hostDecode_of_failed mode (hbuild.trans (containerOf_of_short hlen h t))
  · obtain ⟨h, t, hbuild, hp, hposW⟩ := buildContainer_of_header hs (src := src) (by omega)
    have hbuilt := hbuild.trans (containerOf_of_full hlen h t)
    have hgrid := containerThenGridOnRequest.2 mode
      { header := h, region := compressedRegion src, palette := colors (paletteBytes src) } t hp.inv
    simp only [compressedRegion_length, hposW] at hgrid
    refine ⟨h, hp.bytes, hp.pal16, hp.pad, fun hbpp => hostDecode_of_badFormat mode hbuilt (formatCheck_bpp hbpp),
      fun hbpp hnplanes => hostDecode_of_badFormat mode hbuilt (formatCheck_nplanes hbpp hnplanes),
      fun hbpp hnplanes => ?_, fun hbpp hnplanes => ?_⟩
    · rw [hostDecode_of_supported mode hbuilt (formatCheck_supported hbpp hnplanes)]
      exact hgrid.1
    · rw [hostDecode_of_supported mode hbuilt (formatCheck_supported hbpp hnplanes)]
      exact hgrid.2

end Sys2Proof.Machine

/-! # Proofs: exceptions

A machine with no input to come waits (R227). -/

namespace Sys2Proof.Machine

/-- With no slot to come the step is the idle one. -/
theorem step_of_nothingOffered {s : State} (hinbox : s.inbox = []) : step s = stepIdle s := by
  rw [step, hinbox]

/-- After `rst` the idle step keeps the state; before it the step is refused (R244). -/
theorem stepIdle_of_rstSeen {s : State} (hr : s.rstSeen = true) : stepIdle s = .next s := if_pos hr

/-- Settles O46: the step with nothing offered is the idle one, which `rst` has made a wait. -/
theorem nothingOfferedKeepsState : Obligations.NothingOfferedKeepsState := by
  intro s hr hinbox
  rw [step_of_nothingOffered hinbox, stepIdle_of_rstSeen hr]

end Sys2Proof.Machine

/-! # Proofs: reset and hazards

The controls of a step: `rst` (R240, R244), the starts of the units (R242, R243), and the symbols they keep out
(R241). -/

namespace Sys2Proof.Machine

/-! ## What the controls do -/

theorem applyControls_of_rleStart {sl : Slot} (s : State) (hrst : sl.rst = false) (hhdr : sl.hdrStart = false)
    (hrle : sl.rleStart = true) : applyControls sl s = applyRleStart s := by
  simp [applyControls, hrst, hhdr, hrle]

theorem applyRleStart_of_drained {s : State} (hu : s.undrained = []) :
    applyRleStart s = { s with rle := Rle.reset, startWait := false } := by
  rcases applyRleStart_cases s with ⟨-, e⟩ | ⟨hne, -⟩
  · exact e
  · exact absurd hu hne

theorem applyRleStart_of_undrained {s : State} (hu : s.undrained ≠ []) :
    applyRleStart s = { s with startWait := true } := by
  rcases applyRleStart_cases s with ⟨hnil, -⟩ | ⟨-, e⟩
  · exact absurd hnil hu
  · exact e

/-! ## The sink's transfer after the controls -/

/-- With nothing on the port and no start waiting there is nothing to transfer, however much the sink would take. -/
theorem takeOutput_of_drained (k : Nat) {s : State} (hu : s.undrained = []) (hw : s.startWait = false) :
    takeOutput k s = s := by
  rw [takeOutput_noWait k hw, hu, List.take_nil, List.drop_nil, List.append_nil, ← hu]

/-- A waiting start goes on waiting while a byte is left on the port (R243). -/
theorem takeOutput_of_waiting {k : Nat} {s : State} (hk : k < s.undrained.length) :
    takeOutput k s = { s with sink := s.sink ++ s.undrained.take k, undrained := s.undrained.drop k } := by
  rcases takeOutput_cases k s with ⟨-, e⟩ | ⟨-, hdrop, -⟩
  · exact e
  · exact absurd (List.drop_eq_nil_iff.1 hdrop) (by omega)

/-- A waiting start takes effect as the sink takes the last byte on the port (R243). -/
theorem takeOutput_of_released {k : Nat} {s : State} (hw : s.startWait = true) (hk : s.undrained.length ≤ k) :
    takeOutput k s = s.rleStarted := by
  have hdrop : s.undrained.drop k = [] := List.drop_eq_nil_iff.2 hk
  rcases takeOutput_cases k s with ⟨hno, -⟩ | ⟨-, -, e⟩
  · simp [hw, hdrop] at hno
  · rw [e, List.take_of_length_le hk, State.rleStarted]

/-! ## A step with a control

Its slot `sl` is met after the first `rst`, or asserts `rst` itself. -/

section
variable {s : State} {sl : Slot} {rest : List Slot} (hinbox : s.inbox = sl :: rest)
  (hseen : s.rstSeen = true ∨ sl.rst = true)
include hinbox hseen

/-- With no request the step is the controls and the sink's transfer. -/
theorem step_of_idle_request (hreq : sl.req = .idle) :
    step s = .next (takeOutput sl.take (applyControls sl { s with inbox := rest })) := by
  rw [step_of_slot hinbox, stepSlot_eq (s := { s with inbox := rest }) hseen, runRequest, hreq, andThen_next]

/-- R241: a symbol that a control keeps out stays with the host. -/
theorem step_of_blocked_word {w : PortWord} (hreq : sl.req = .offer w) (hblock : blockedByControl sl w = true) :
    step s = .next (takeOutput sl.take (holdWord w (applyControls sl { s with inbox := rest }))) := by
  have hhold (u : State) : runRequest sl u = .next (holdWord w u) := by simp [runRequest, hreq, hblock]
  rw [step_of_slot hinbox, stepSlot_eq (s := { s with inbox := rest }) hseen, hhold, andThen_next]

end

/-- R240: `rst` keeps every symbol out. -/
theorem blockedByControl_of_rst {sl : Slot} {w : PortWord} (hrst : sl.rst = true) (hw : w.port ≠ .field) :
    blockedByControl sl w = true := by
  cases hp : w.port with
  | rle => simp [blockedByControl, hp, hrst]
  | hdr => simp [blockedByControl, hp, hrst]
  | field => exact absurd hp hw

/-- After `rst` no request of the same slot changes a unit, the output or the sink (R240, R241). -/
theorem runRequest_after_rst {sl : Slot} {s u : State} (hrst : sl.rst = true)
    (h : runRequest sl (applyRst s) = .next u) :
    u.hdr = Hdr.reset ∧ u.rle = Rle.reset ∧ u.undrained = [] ∧ u.startWait = false ∧ u.sink = s.sink := by
  have hhdr : u.hdr = Hdr.reset := by
    rcases runRequest_hdr h with hhdr | ⟨-, -, -, hno, -⟩
    · exact hhdr
    · simp [hrst] at hno
  have hrle : u.rle = Rle.reset ∧ u.undrained = [] := by
    rcases runRequest_rle h with hrle | ⟨-, -, -, hno, -⟩
    · exact hrle
    · simp [hrst] at hno
  exact ⟨hhdr, hrle.1, hrle.2, runRequest_startWait h, runRequest_sink (s := applyRst s) h⟩

/-! ## The obligations -/

/-- Settles O40: the controls give the invariant when `rst` is one of them, and the rest of the step keeps it. -/
theorem rstEstablishesInvariant : Obligations.RstEstablishesInvariant := by
  intro s t sl hhead hrst h
  obtain ⟨rest, u, -, hu, rfl⟩ := step_next_of_head hhead h
  exact ⟨takeOutput_inv (runRequest_inv (applyControls_inv (.inr hrst)) hu), step_posW h⟩

/-- Settles O41: `rst` leaves the sink nothing to take, and no request of its slot reaches a unit. -/
theorem rstResetsBothUnits : Obligations.RstResetsBothUnits := by
  intro s sl rest hinbox hrst
  refine ⟨fun hreq => ?_, fun w hreq hw => ?_, fun t h => ?_⟩
  · rw [step_of_idle_request hinbox (.inr hrst) hreq, applyControls_of_rst _ hrst, takeOutput_of_drained _ rfl rfl]
    rfl
  · rw [step_of_blocked_word hinbox (.inr hrst) hreq (blockedByControl_of_rst hrst hw), applyControls_of_rst _ hrst,
      takeOutput_of_drained _ rfl rfl]
    rfl
  · rw [step_of_slot hinbox] at h
    obtain ⟨-, u, hu, rfl⟩ := stepSlot_next.1 h
    rw [applyControls_of_rst _ hrst] at hu
    obtain ⟨hhdr, hrle, hund, hwait, hsink⟩ := runRequest_after_rst hrst hu
    rw [takeOutput_of_drained _ hund hwait]
    exact ⟨hhdr, hrle, hund, hsink⟩

/-- Settles O42: the control is `hdr_start`, the symbol is held, and the sink takes nothing. -/
theorem hdrStartRestartsHdrAlone : Obligations.HdrStartRestartsHdrAlone := by
  intro s rest hr hwait
  refine ⟨fun hinbox => ?_, fun x hinbox => ?_⟩
  · rw [step_of_idle_request hinbox (.inl hr) rfl]
    exact congrArg Host.Outcome.next (takeOutput_none (applyHdrStart { s with inbox := rest }) hwait)
  · rw [step_of_blocked_word hinbox (.inl hr) rfl rfl]
    exact congrArg Host.Outcome.next
      (takeOutput_none (holdWord (.hdrSym x) (applyHdrStart { s with inbox := rest })) hwait)

/-- Settles O43: with nothing undrained the start acts at once, and there is nothing for the sink to take. -/
theorem rleStartRestartsRleAlone : Obligations.RleStartRestartsRleAlone := by
  intro s rest hr hu
  have hstart : applyRleStart { s with inbox := rest } =
      { s with inbox := rest, rle := Rle.reset, startWait := false } := applyRleStart_of_drained hu
  refine ⟨fun hinbox => ?_, fun x hinbox => ?_⟩
  · rw [step_of_idle_request hinbox (.inl hr) rfl, applyControls_of_rleStart _ rfl rfl rfl, hstart]
    exact congrArg Host.Outcome.next (takeOutput_of_drained _ hu rfl)
  · rw [step_of_blocked_word hinbox (.inl hr) rfl rfl, applyControls_of_rleStart _ rfl rfl rfl, hstart]
    exact congrArg Host.Outcome.next (takeOutput_of_drained _ hu rfl)

/-- Settles O44: either slot leaves a start waiting, which the sink's transfer releases with the last byte. -/
theorem rleStartWaitsForTheDrain : Obligations.RleStartWaitsForTheDrain := by
  intro s rest k hr hu hinbox
  have hstep : step s = .next (takeOutput k { s with inbox := rest, startWait := true }) := by
    rcases hinbox with hinbox | ⟨hwait, hinbox⟩
    · have hstart : applyRleStart { s with inbox := rest } = { s with inbox := rest, startWait := true } :=
        applyRleStart_of_undrained hu
      rw [step_of_idle_request hinbox (.inl hr) rfl, applyControls_of_rleStart _ rfl rfl rfl, hstart]
    · rw [step_of_idle_request hinbox (.inl hr) rfl, applyControls_none _ rfl rfl rfl, ← hwait]
  exact ⟨fun hk => hstep.trans (congrArg Host.Outcome.next (takeOutput_of_waiting hk)),
    fun hk => hstep.trans (congrArg Host.Outcome.next (takeOutput_of_released rfl hk))⟩

/-- Settles O45: the step is the idle one or that of a slot without `rst`, and each asks for a first `rst`. -/
theorem noStepBeforeFirstRst : Obligations.NoStepBeforeFirstRst := by
  intro s hr hrst
  cases hinbox : s.inbox with
  | nil => simp [step_of_nothingOffered hinbox, stepIdle, hr]
  | cons sl rest =>
    have hsl : sl.rst = false := hrst sl (by rw [hinbox, List.head?_cons])
    simp [step_of_slot hinbox, stepSlot, hr, hsl]

end Sys2Proof.Machine
